-- ==== Sys2Proof/Word.lean ====
section
/-! DEFINITION. The word types of the Rip8 core: 8-bit bytes, 16-bit words, and the 4-bit index of a
sixteen-entry array (spec/10_state.md, spec/00_scope.md R6). -/

namespace Sys2Proof

/-- A byte: a general register, a timer, a memory cell (R10, R16, R31). -/
abbrev Byte := BitVec 8

/-- A 16-bit word: an opcode, `I`, `pc`, `sp`, a stack entry (R12 to R15). -/
abbrev Word := BitVec 16

/-- The index of a sixteen-entry array: a register field `x` or `y`, a key code, a glyph number. -/
abbrev Index := Fin 16

/-- The flag register: `VF` is `V[15]` (R11). -/
abbrev flagIndex : Index := 15

end Sys2Proof
end

