-- ==== Sys2Proof/Syntax.lean ====
section
/-! DEFINITION. The 34 instructions of spec/opcode_table.json (spec/30_encoding.md R50), one
constructor per row, in the table's order. Register fields are `Index`, `kk` is a byte, `nnn` is 12
bits (R48); the row count `n` of `DRW` is a count, held as a number and bounded in WellFormed. -/

namespace Sys2Proof

/-- One decoded instruction. -/
inductive Instr where
  /-- `00E0` CLS (R95). -/
  | cls
  /-- `00EE` RET (R64). -/
  | ret
  /-- `1nnn` JP nnn (R65). -/
  | jp (nnn : BitVec 12)
  /-- `2nnn` CALL nnn (R66). -/
  | call (nnn : BitVec 12)
  /-- `3xkk` SE Vx,kk (R67). -/
  | seImm (x : Index) (kk : Byte)
  /-- `4xkk` SNE Vx,kk (R68). -/
  | sneImm (x : Index) (kk : Byte)
  /-- `5xy0` SE Vx,Vy (R69). -/
  | seReg (x y : Index)
  /-- `9xy0` SNE Vx,Vy (R70). -/
  | sneReg (x y : Index)
  /-- `6xkk` LD Vx,kk (R73). -/
  | ldImm (x : Index) (kk : Byte)
  /-- `7xkk` ADD Vx,kk (R74). -/
  | addImm (x : Index) (kk : Byte)
  /-- `8xy0` LD Vx,Vy (R75). -/
  | ldReg (x y : Index)
  /-- `8xy1` OR Vx,Vy (R76). -/
  | orReg (x y : Index)
  /-- `8xy2` AND Vx,Vy, which computes OR on this hardware (R77). -/
  | andReg (x y : Index)
  /-- `8xy3` XOR Vx,Vy (R78). -/
  | xorReg (x y : Index)
  /-- `8xy4` ADD Vx,Vy (R79). -/
  | addReg (x y : Index)
  /-- `8xy5` SUB Vx,Vy (R80). -/
  | subReg (x y : Index)
  /-- `8xy6` SHR Vx; the field `y` is decoded and ignored (R81). -/
  | shr (x y : Index)
  /-- `8xy7` SUBN Vx,Vy (R82). -/
  | subnReg (x y : Index)
  /-- `8xyE` SHL Vx; the field `y` is decoded and ignored (R83). -/
  | shl (x y : Index)
  /-- `Annn` LD I,nnn (R87). -/
  | ldI (nnn : BitVec 12)
  /-- `Bnnn` JP V0,nnn (R71). -/
  | jpV0 (nnn : BitVec 12)
  /-- `Cxkk` RND Vx,kk (R84). -/
  | rnd (x : Index) (kk : Byte)
  /-- `Dxyn` DRW Vx,Vy,n (R96). -/
  | drw (x y : Index) (n : Nat)
  /-- `Ex9E` SKP Vx (R99). -/
  | skp (x : Index)
  /-- `ExA1` SKNP Vx (R100). -/
  | sknp (x : Index)
  /-- `Fx07` LD Vx,DT (R101). -/
  | ldVxDT (x : Index)
  /-- `Fx15` LD DT,Vx (R102). -/
  | ldDTVx (x : Index)
  /-- `Fx18` LD ST,Vx (R103). -/
  | ldSTVx (x : Index)
  /-- `Fx0A` LD Vx,K (R104). -/
  | ldVxK (x : Index)
  /-- `Fx1E` ADD I,Vx (R88). -/
  | addI (x : Index)
  /-- `Fx29` LD F,Vx (R89). -/
  | ldF (x : Index)
  /-- `Fx33` LD B,Vx (R90). -/
  | ldB (x : Index)
  /-- `Fx55` LD [I],Vx (R91). -/
  | storeRegs (x : Index)
  /-- `Fx65` LD Vx,[I] (R92). -/
  | loadRegs (x : Index)
  deriving DecidableEq, Repr

end Sys2Proof
end

