-- ==== Sys2Proof/Decode.lean ====
section
/-! DEFINITION. Decoding and encoding (spec/30_encoding.md R46 to R51, spec/20_memory.md R34). Decoding
is total on any bytes and rejects by name; the encoder is written from the same map. -/

namespace Sys2Proof

/-! ## Fields of an instruction word (R6) -/

/-- `hi = op[15:12]`. -/
def hiField (op : Word) : BitVec 4 := op.extractLsb' 12 4

/-- `x = op[11:8]`. -/
def xField (op : Word) : Index := (op.extractLsb' 8 4).toFin

/-- `y = op[7:4]`. -/
def yField (op : Word) : Index := (op.extractLsb' 4 4).toFin

/-- `n = op[3:0]`, the low nibble. -/
def nField (op : Word) : BitVec 4 := op.extractLsb' 0 4

/-- `kk = op[7:0]`, the low byte. -/
def kkField (op : Word) : Byte := op.extractLsb' 0 8

/-- `nnn = op[11:0]`. -/
def nnnField (op : Word) : BitVec 12 := op.extractLsb' 0 12

/-! ## Decoding -/

/-- Why the decoder refuses. -/
inductive DecodeReject where
  /-- The word matches no row of R50: an illegal encoding (R51). -/
  | illegalWord (op : Word)
  /-- Fewer than the two bytes of an instruction were given (R46). -/
  | tooFewBytes
  deriving DecidableEq, Repr

/-- The nine operations of `8xy_`, selected by the low nibble (R49, D6). -/
def decodeAlu (op : Word) : Except DecodeReject Instr :=
  match nField op with
  | 0x0#4 => .ok (.ldReg (xField op) (yField op))
  | 0x1#4 => .ok (.orReg (xField op) (yField op))
  | 0x2#4 => .ok (.andReg (xField op) (yField op))
  | 0x3#4 => .ok (.xorReg (xField op) (yField op))
  | 0x4#4 => .ok (.addReg (xField op) (yField op))
  | 0x5#4 => .ok (.subReg (xField op) (yField op))
  | 0x6#4 => .ok (.shr (xField op) (yField op))
  | 0x7#4 => .ok (.subnReg (xField op) (yField op))
  | 0xE#4 => .ok (.shl (xField op) (yField op))
  | _ => .error (.illegalWord op)

/-- The instructions `Ex__`, selected by the low byte (R49). -/
def decodeKey (op : Word) : Except DecodeReject Instr :=
  match kkField op with
  | 0x9E#8 => .ok (.skp (xField op))
  | 0xA1#8 => .ok (.sknp (xField op))
  | _ => .error (.illegalWord op)

/-- The instructions `Fx__`, selected by the low byte (R49, D17). -/
def decodeMisc (op : Word) : Except DecodeReject Instr :=
  match kkField op with
  | 0x07#8 => .ok (.ldVxDT (xField op))
  | 0x0A#8 => .ok (.ldVxK (xField op))
  | 0x15#8 => .ok (.ldDTVx (xField op))
  | 0x18#8 => .ok (.ldSTVx (xField op))
  | 0x1E#8 => .ok (.addI (xField op))
  | 0x29#8 => .ok (.ldF (xField op))
  | 0x33#8 => .ok (.ldB (xField op))
  | 0x55#8 => .ok (.storeRegs (xField op))
  | 0x65#8 => .ok (.loadRegs (xField op))
  | _ => .error (.illegalWord op)

/-- R49: from a 16-bit word to one of the 34 instructions, or illegal. Every constant digit of a
pattern is compared (D5). -/
def decodeWord (op : Word) : Except DecodeReject Instr :=
  match hiField op with
  | 0x0#4 =>
    if op = 0x00E0 then .ok .cls else if op = 0x00EE then .ok .ret else .error (.illegalWord op)
  | 0x1#4 => .ok (.jp (nnnField op))
  | 0x2#4 => .ok (.call (nnnField op))
  | 0x3#4 => .ok (.seImm (xField op) (kkField op))
  | 0x4#4 => .ok (.sneImm (xField op) (kkField op))
  | 0x5#4 =>
    if nField op = 0 then .ok (.seReg (xField op) (yField op)) else .error (.illegalWord op)
  | 0x6#4 => .ok (.ldImm (xField op) (kkField op))
  | 0x7#4 => .ok (.addImm (xField op) (kkField op))
  | 0x8#4 => decodeAlu op
  | 0x9#4 =>
    if nField op = 0 then .ok (.sneReg (xField op) (yField op)) else .error (.illegalWord op)
  | 0xA#4 => .ok (.ldI (nnnField op))
  | 0xB#4 => .ok (.jpV0 (nnnField op))
  | 0xC#4 => .ok (.rnd (xField op) (kkField op))
  | 0xD#4 => .ok (.drw (xField op) (yField op) (nField op).toNat)
  | 0xE#4 => decodeKey op
  | 0xF#4 => decodeMisc op
  | _ => .error (.illegalWord op)

/-- The word of two bytes, the one at the lower address first: big-endian (R34). -/
def wordOfBytes (first second : Byte) : Word := first ++ second

/-- Decode the instruction at the head of a byte list, with the bytes after it (R34, R46). -/
def decodeBytes : List Byte → Except DecodeReject (Instr × List Byte)
  | first :: second :: rest =>
    match decodeWord (wordOfBytes first second) with
    | .ok i => .ok (i, rest)
    | .error r => .error r
  | [_] => .error .tooFewBytes
  | [] => .error .tooFewBytes

/-- The two bytes of a table word, in the order they lie in memory: the word's bits at or above
`nbits` are 0, bit 0 is its least significant bit (R6, R34). -/
def tableBytes (nbits w : Nat) : List Byte :=
  [BitVec.ofNat 8 (w % 2 ^ nbits / 256), BitVec.ofNat 8 (w % 2 ^ nbits)]

/-- The instruction the decoder reads from a word numbered as spec/opcode_table.json numbers it. -/
def decodeTableWord (nbits w : Nat) : Option Instr :=
  match decodeBytes (tableBytes nbits w) with
  | .ok (i, _) => some i
  | .error _ => none

/-! ## Encoding (R47, R50) -/

/-- Format `NNN`: `hi`, then the 12-bit address. -/
def encodeNNN (hi : BitVec 4) (nnn : BitVec 12) : Word := hi ++ nnn

/-- Format `XKK`: `hi`, `x`, then the byte. -/
def encodeXKK (hi : BitVec 4) (x : Index) (kk : Byte) : Word := (hi ++ BitVec.ofFin (w := 4) x) ++ kk

/-- Formats `XY` and `XYN`: `hi`, `x`, `y`, then the low nibble. -/
def encodeXYN (hi : BitVec 4) (x y : Index) (n : BitVec 4) : Word :=
  (hi ++ BitVec.ofFin (w := 4) x) ++ (BitVec.ofFin (w := 4) y ++ n)

/-- The word of an instruction; on a well-formed one the decoder gives it back. -/
def encode : Instr → Word
  | .cls => 0x00E0
  | .ret => 0x00EE
  | .jp nnn => encodeNNN 0x1 nnn
  | .call nnn => encodeNNN 0x2 nnn
  | .seImm x kk => encodeXKK 0x3 x kk
  | .sneImm x kk => encodeXKK 0x4 x kk
  | .seReg x y => encodeXYN 0x5 x y 0x0
  | .sneReg x y => encodeXYN 0x9 x y 0x0
  | .ldImm x kk => encodeXKK 0x6 x kk
  | .addImm x kk => encodeXKK 0x7 x kk
  | .ldReg x y => encodeXYN 0x8 x y 0x0
  | .orReg x y => encodeXYN 0x8 x y 0x1
  | .andReg x y => encodeXYN 0x8 x y 0x2
  | .xorReg x y => encodeXYN 0x8 x y 0x3
  | .addReg x y => encodeXYN 0x8 x y 0x4
  | .subReg x y => encodeXYN 0x8 x y 0x5
  | .shr x y => encodeXYN 0x8 x y 0x6
  | .subnReg x y => encodeXYN 0x8 x y 0x7
  | .shl x y => encodeXYN 0x8 x y 0xE
  | .ldI nnn => encodeNNN 0xA nnn
  | .jpV0 nnn => encodeNNN 0xB nnn
  | .rnd x kk => encodeXKK 0xC x kk
  | .drw x y n => encodeXYN 0xD x y (BitVec.ofNat 4 n)
  | .skp x => encodeXKK 0xE x 0x9E
  | .sknp x => encodeXKK 0xE x 0xA1
  | .ldVxDT x => encodeXKK 0xF x 0x07
  | .ldDTVx x => encodeXKK 0xF x 0x15
  | .ldSTVx x => encodeXKK 0xF x 0x18
  | .ldVxK x => encodeXKK 0xF x 0x0A
  | .addI x => encodeXKK 0xF x 0x1E
  | .ldF x => encodeXKK 0xF x 0x29
  | .ldB x => encodeXKK 0xF x 0x33
  | .storeRegs x => encodeXKK 0xF x 0x55
  | .loadRegs x => encodeXKK 0xF x 0x65

/-! ## The opcode map as data (R50) -/

/-- One row of R50's map: `op` selects the row exactly when `op &&& mask = pattern`. -/
structure OpcodeRow where
  mask : Word
  pattern : Word
  deriving DecidableEq, Repr

/-- The row of R50 an instruction stands in. -/
def Instr.row : Instr → OpcodeRow
  | .cls => ⟨0xFFFF, 0x00E0⟩
  | .ret => ⟨0xFFFF, 0x00EE⟩
  | .jp _ => ⟨0xF000, 0x1000⟩
  | .call _ => ⟨0xF000, 0x2000⟩
  | .seImm _ _ => ⟨0xF000, 0x3000⟩
  | .sneImm _ _ => ⟨0xF000, 0x4000⟩
  | .seReg _ _ => ⟨0xF00F, 0x5000⟩
  | .sneReg _ _ => ⟨0xF00F, 0x9000⟩
  | .ldImm _ _ => ⟨0xF000, 0x6000⟩
  | .addImm _ _ => ⟨0xF000, 0x7000⟩
  | .ldReg _ _ => ⟨0xF00F, 0x8000⟩
  | .orReg _ _ => ⟨0xF00F, 0x8001⟩
  | .andReg _ _ => ⟨0xF00F, 0x8002⟩
  | .xorReg _ _ => ⟨0xF00F, 0x8003⟩
  | .addReg _ _ => ⟨0xF00F, 0x8004⟩
  | .subReg _ _ => ⟨0xF00F, 0x8005⟩
  | .shr _ _ => ⟨0xF00F, 0x8006⟩
  | .subnReg _ _ => ⟨0xF00F, 0x8007⟩
  | .shl _ _ => ⟨0xF00F, 0x800E⟩
  | .ldI _ => ⟨0xF000, 0xA000⟩
  | .jpV0 _ => ⟨0xF000, 0xB000⟩
  | .rnd _ _ => ⟨0xF000, 0xC000⟩
  | .drw _ _ _ => ⟨0xF000, 0xD000⟩
  | .skp _ => ⟨0xF0FF, 0xE09E⟩
  | .sknp _ => ⟨0xF0FF, 0xE0A1⟩
  | .ldVxDT _ => ⟨0xF0FF, 0xF007⟩
  | .ldDTVx _ => ⟨0xF0FF, 0xF015⟩
  | .ldSTVx _ => ⟨0xF0FF, 0xF018⟩
  | .ldVxK _ => ⟨0xF0FF, 0xF00A⟩
  | .addI _ => ⟨0xF0FF, 0xF01E⟩
  | .ldF _ => ⟨0xF0FF, 0xF029⟩
  | .ldB _ => ⟨0xF0FF, 0xF033⟩
  | .storeRegs _ => ⟨0xF0FF, 0xF055⟩
  | .loadRegs _ => ⟨0xF0FF, 0xF065⟩

/-- The 34 rows of R50, in its order. -/
def opcodeRows : List OpcodeRow :=
  [⟨0xFFFF, 0x00E0⟩, ⟨0xFFFF, 0x00EE⟩, ⟨0xF000, 0x1000⟩, ⟨0xF000, 0x2000⟩, ⟨0xF000, 0x3000⟩,
    ⟨0xF000, 0x4000⟩, ⟨0xF00F, 0x5000⟩, ⟨0xF00F, 0x9000⟩, ⟨0xF000, 0x6000⟩, ⟨0xF000, 0x7000⟩] ++
  [⟨0xF00F, 0x8000⟩, ⟨0xF00F, 0x8001⟩, ⟨0xF00F, 0x8002⟩, ⟨0xF00F, 0x8003⟩, ⟨0xF00F, 0x8004⟩,
    ⟨0xF00F, 0x8005⟩, ⟨0xF00F, 0x8006⟩, ⟨0xF00F, 0x8007⟩, ⟨0xF00F, 0x800E⟩] ++
  [⟨0xF000, 0xA000⟩, ⟨0xF000, 0xB000⟩, ⟨0xF000, 0xC000⟩, ⟨0xF000, 0xD000⟩, ⟨0xF0FF, 0xE09E⟩,
    ⟨0xF0FF, 0xE0A1⟩] ++
  [⟨0xF0FF, 0xF007⟩, ⟨0xF0FF, 0xF015⟩, ⟨0xF0FF, 0xF018⟩, ⟨0xF0FF, 0xF00A⟩, ⟨0xF0FF, 0xF01E⟩,
    ⟨0xF0FF, 0xF029⟩, ⟨0xF0FF, 0xF033⟩, ⟨0xF0FF, 0xF055⟩, ⟨0xF0FF, 0xF065⟩]

end Sys2Proof
end

