-- ==== Sys2Proof/Config.lean ====
section
/-! DEFINITION. The identity of the hardware (spec/00_scope.md R1), what it fixes (R5), the two parameters the spec leaves to a
model (`FONT`, `ALU_AND_MODE`), and the one free value, the random byte of `Cxkk`. -/

namespace Sys2Proof.Config

/-- What names a piece of hardware whose source has no part number, version register or vendor (R1). -/
structure Identity where
  repository : String
  block : String
  /-- The revision of the source document. -/
  revision : String
  deriving DecidableEq, Repr

/-- The hardware this model is of (R1): the block CORE of the repository hesslink111/Rip8, source document
revision "v7". No instruction reads it. -/
def identity : Identity where
  repository := "hesslink111/Rip8"
  block := "CORE"
  revision := "v7"

/-- `MEM_SIZE`: addresses 0..4095 exist (R5, R31). -/
abbrev memSize : Nat := 4096

/-- `PROG_BASE`: where `Load` puts the image (R5, R44). -/
abbrev progBase : Nat := 0x200

/-- `PROG_MAX`: how many image bytes `Load` keeps (R5, R44). -/
abbrev progMax : Nat := 3584

/-- `PC_RESET` (R5, R30; the spec's decision D1, log 5). -/
abbrev pcReset : Word := 0x200

/-- `FONT[0..79]`, the default table of R20. PRESUMED (log 4): the source gives no glyph byte, and the
spec supplies the conventional table from general knowledge (D3). -/
def font : List Byte :=
  [0xF0, 0x90, 0x90, 0x90, 0xF0] ++ [0x20, 0x60, 0x20, 0x20, 0x70] ++
  [0xF0, 0x10, 0xF0, 0x80, 0xF0] ++ [0xF0, 0x10, 0xF0, 0x10, 0xF0] ++
  [0x90, 0x90, 0xF0, 0x10, 0x10] ++ [0xF0, 0x80, 0xF0, 0x10, 0xF0] ++
  [0xF0, 0x80, 0xF0, 0x90, 0xF0] ++ [0xF0, 0x10, 0x20, 0x40, 0x40] ++
  [0xF0, 0x90, 0xF0, 0x90, 0xF0] ++ [0xF0, 0x90, 0xF0, 0x10, 0xF0] ++
  [0xF0, 0x90, 0xF0, 0x90, 0x90] ++ [0xE0, 0x90, 0xE0, 0x90, 0xE0] ++
  [0xF0, 0x80, 0x80, 0x80, 0xF0] ++ [0xE0, 0x90, 0x90, 0x90, 0xE0] ++
  [0xF0, 0x80, 0xF0, 0x80, 0xF0] ++ [0xF0, 0x80, 0xF0, 0x80, 0x80]

/-- The two settings of the switch `ALU_AND_MODE` (R5, R77). -/
inductive AluAndMode where
  /-- `8xy2` computes OR: the hardware of this spec. -/
  | union
  /-- `8xy2` computes AND: documented CHIP-8, not this hardware. -/
  | intersect
  deriving DecidableEq, Repr

/-- The switch at its normative value (R5, R77, D7; log 6). -/
def aluAndMode : AluAndMode := .union

/-- The random byte of the n-th execution of `Cxkk`: a free value, nothing constrains it (R26,
D20; log 3). -/
opaque rand : Nat → Byte

end Sys2Proof.Config
end

