-- ==== Sys2Proof/Machine/State.lean ====
section
/-! DEFINITION. The state of the Rip8 core as plain data (spec/10_state.md), the reasons a step could
stop, and the state right after reset (R30). -/

namespace Sys2Proof.Machine

/-- The 64×32 one-bit framebuffer: entry `px` is column `px`, whose bit `py` is the pixel in row `py`,
that is the cell `fb[px*32 + py]` (R18, R94; log 12). -/
abbrev Framebuffer := Vector (BitVec 32) 64

/-- A key transition event `(code, pressed)` of the input channel (R21). -/
structure KeyEvent where
  code : Index
  pressed : Bool
  deriving DecidableEq, Repr

/-- The fault causes of R109. -/
inductive FaultCause where
  /-- Code 1: the decoded word is illegal. -/
  | unknownOpcode
  /-- Code 2: a memory address above 4095, by a fetch or a transfer. -/
  | memIndex
  /-- Code 3: `CALL` with no free stack entry, `RET` with no call outstanding. -/
  | stackIndex
  /-- Code 4: `SKP` or `SKNP` with `V[x] > 15`. -/
  | keyIndex
  /-- Code 5: `LD F,Vx` with `V[x] > 15`. -/
  | fontIndex
  /-- Code 6: `ADD I,Vx` whose sum does not fit 16 bits. -/
  | addrOverflow
  /-- Code 7: the host transaction `ChannelFail`. -/
  | channelBroken
  deriving DecidableEq, Repr

/-- The fault record's content: the cause and the offending value (R23; log 11). -/
structure FaultRecord where
  cause : FaultCause
  info : Nat
  deriving DecidableEq, Repr

/-- The ghost cell of R44: what the host has done since the last `Reset`. -/
inductive Boot where
  /-- After `Reset`: a `Load` is acceptable. -/
  | fresh
  /-- After the accepted `Load`. -/
  | loaded
  /-- After the first `Step`. -/
  | running
  deriving DecidableEq, Repr

/-- The interface transactions of R29; each is one atomic step (R41, R56). The input `rand` is
`Config.rand`; the outputs are functions of the state (Machine/Outputs.lean). -/
inductive Transaction where
  /-- The host sets every cell to its reset value (R123). -/
  | reset
  /-- The loader hands over a program image (R44). -/
  | load (image : List Byte)
  /-- One dispatcher step (R57). -/
  | step
  /-- One ticker step (R114). -/
  | tick
  /-- The input collaborator appends an event (R115). -/
  | keyEvent (event : KeyEvent)
  /-- The input channel breaks (R118). -/
  | channelFail
  /-- The render collaborator reads the framebuffer cell `j`, 0..2047 (R116). -/
  | fbRead (j : BitVec 11)
  /-- The render collaborator acknowledges the notification (R116). -/
  | redrawAck
  deriving DecidableEq, Repr

/-- The state. The manual's cells carry the manual's names. -/
structure State where
  /-- General registers; `V[15]` is `VF` (R10, R11). -/
  V : Vector Byte 16
  /-- Address register (R12). -/
  I : Word
  /-- Program counter (R13). -/
  pc : Word
  /-- Stack pointer: the index of the most recently pushed entry (R14). -/
  sp : Word
  /-- Call stack (R15). -/
  stack : Vector Word 16
  /-- Delay timer (R16). -/
  DT : Byte
  /-- Sound timer (R16). -/
  ST : Byte
  /-- Key flags, `true` when held (R17). -/
  keys : Vector Bool 16
  /-- Framebuffer (R18). -/
  fb : Framebuffer
  /-- Font offset table, written by nothing after reset (R19; log 10). -/
  fontOffset : Vector Word 16
  /-- Memory: the bytes that differ from their reset value, addresses rising (R31; log 13). -/
  mem : List Host.Cell
  /-- Key-event queue, oldest first (R21). -/
  queue : List KeyEvent
  /-- Key-wait state: `some x` while an `Fx0A` waits for a press (R22). -/
  wait : Option Index
  /-- Fault record: `some` is the halted condition (R23). -/
  fault : Option FaultRecord
  /-- Output `notify` of the latest dispatcher step (R24 (a), R57; log 8). -/
  notify : Bool
  /-- Latch `redraw_pending` (R24 (b)). -/
  redrawPending : Bool
  /-- Ghost cell of R44, read by no instruction (log 9). -/
  boot : Boot
  /-- The MODEL's own field: how many random bytes have been drawn (R26; log 3). -/
  draws : Nat
  /-- The MODEL's own field: the transactions that come next, oldest first; when it is empty the
  dispatcher steps (R29, R56; log 2). -/
  schedule : List Transaction
  deriving DecidableEq, Repr

/-- Reasons a step could end with no next state. No definition of this model answers one: the spec
describes the entry of each of its faults, so a fault is a next state whose `fault` cell holds the
record (R107; log 1). -/
inductive Fault where
  /-- A halted dispatcher reported as a stop. Raised by nobody: a `Step` of a halted dispatcher is
  a next state in which nothing happens (R62). Safe, because no step answers it. -/
  | halted (record : FaultRecord)
  deriving DecidableEq, Repr

/-- Reasons the model gives an instruction no meaning. -/
inductive Refusal where
  /-- The instruction has no meaning yet. Answered only by an arm of `exec`, and no arm of this model
  answers it. Safe. -/
  | notModelled (mnemonic : String)
  deriving DecidableEq, Repr

/-- The machine right after `Reset` (R30, R123). `pc` is the spec's decision D1 (log 5); `notify`,
`draws` and `schedule` are named in logs 8, 3 and 2; `mem` lists nothing, so every byte reads as
its reset value. -/
def State.reset : State where
  V := Vector.replicate 16 0
  I := 0
  pc := Config.pcReset
  sp := 0
  stack := Vector.replicate 16 0
  DT := 0
  ST := 0
  keys := Vector.replicate 16 false
  fb := Vector.replicate 64 0
  fontOffset := Vector.ofFn fun d => BitVec.ofNat 16 (5 * d.val)
  mem := []
  queue := []
  wait := none
  fault := none
  notify := false
  redrawPending := false
  boot := .fresh
  draws := 0
  schedule := []

end Sys2Proof.Machine
end

