-- ==== Sys2Proof/Machine/Ops.lean ====
section
/-! DEFINITION. The named operations over memory, registers, stack, framebuffer, keys and the fault
record (spec/10_state.md, spec/20_memory.md, spec/60_exceptions.md). -/

namespace Sys2Proof.Machine

/-! ## Memory (R31 to R38) -/

/-- What an address that is not listed reads as: its reset contents, the font at 0..79 and zero
elsewhere (R20, R30; log 13). -/
def Memory.unlisted (a : Nat) : Byte := Config.font.getD a 0

/-- The canonical form: addresses rise strictly, each is below 4096, and no entry equals what its
address reads as unlisted. -/
abbrev Memory.wf (m : List Host.Cell) : Prop :=
  m.Pairwise (fun c d => c.1 < d.1) ∧ ∀ c ∈ m, c.1 < Config.memSize ∧ c.2 ≠ Memory.unlisted c.1

/-- The byte at an address (R37: reads have no side effect). -/
def Memory.read : List Host.Cell → Nat → Byte
  | [], a => Memory.unlisted a
  | (k, b) :: m, a => if k = a then b else Memory.read m a

/-- Put an entry in its place, dropping the one it replaces. -/
def Memory.insert (a : Nat) (b : Byte) : List Host.Cell → List Host.Cell
  | [] => [(a, b)]
  | (k, c) :: m =>
    if a < k then (a, b) :: (k, c) :: m
    else if a = k then (a, b) :: m
    else (k, c) :: Memory.insert a b m

/-- Drop the entry of an address. -/
def Memory.erase (a : Nat) : List Host.Cell → List Host.Cell
  | [] => []
  | (k, c) :: m => if k = a then Memory.erase a m else (k, c) :: Memory.erase a m

/-- Write one byte, keeping the canonical form; an address above 4095 is not accessed (R33). -/
def Memory.write (m : List Host.Cell) (a : Nat) (b : Byte) : List Host.Cell :=
  if a < Config.memSize then
    if b = Memory.unlisted a then Memory.erase a m else Memory.insert a b m
  else m

/-- Write bytes at ascending addresses (R35). -/
def Memory.writeAll (m : List Host.Cell) (a : Nat) : List Byte → List Host.Cell
  | [] => m
  | b :: bytes => Memory.writeAll (Memory.write m a b) (a + 1) bytes

/-- `memory[a]`. -/
def State.byteAt (s : State) (a : Nat) : Byte := Memory.read s.mem a

/-- Store bytes at ascending addresses from `a`. -/
def State.storeBytes (s : State) (a : Nat) (bytes : List Byte) : State :=
  { s with mem := Memory.writeAll s.mem a bytes }

/-! ## Registers -/

/-- `V[r]` (R10). -/
def State.reg (s : State) (r : Index) : Byte := s.V[r]

/-- `V[r] <- b` (R10). -/
def State.setReg (s : State) (r : Index) (b : Byte) : State := { s with V := s.V.set r b }

/-- `I <- w` (R12). -/
def State.setI (s : State) (w : Word) : State := { s with I := w }

/-- `pc <- w` (R13). -/
def State.setPc (s : State) (w : Word) : State := { s with pc := w }

/-- `pc <- pc + 2`: the fetch's advance and a taken skip (R59, R67; log 16). -/
def State.advance (s : State) : State := s.setPc (s.pc + 2)

/-- `DT <- b` (R16). -/
def State.setDT (s : State) (b : Byte) : State := { s with DT := b }

/-- `ST <- b` (R16). -/
def State.setST (s : State) (b : Byte) : State := { s with ST := b }

/-- One more random byte has been drawn (R26; log 3). -/
def State.countDraw (s : State) : State := { s with draws := s.draws + 1 }

/-! ## Call stack (R14, R15) -/

/-- `sp <- sp + 1; stack[sp] <- w`, for an `sp` whose successor is the entry `j`. -/
def State.push (s : State) (j : Index) (w : Word) : State :=
  { s with sp := s.sp + 1, stack := s.stack.set j w }

/-- `pc <- stack[sp]; sp <- sp - 1`, for an `sp` that is the entry `j`; the entry keeps its value. -/
def State.pop (s : State) (j : Index) : State :=
  { s with pc := s.stack[j], sp := s.sp - 1 }

/-! ## Framebuffer (R18, R94) -/

/-- The cell of pixel (px, py): `px*32 + py`. -/
def cellIndex (px py : Nat) : Nat := px * 32 + py

/-- `fb[j]`. -/
def Framebuffer.cell (f : Framebuffer) (j : Nat) : Bool :=
  if h : j / 32 < 64 then f[j / 32].getLsbD (j % 32) else false

/-- `fb[j] <- not fb[j]`. -/
def Framebuffer.flip (f : Framebuffer) (j : Nat) : Framebuffer :=
  if h : j / 32 < 64 then f.set (j / 32) (f[j / 32] ^^^ BitVec.twoPow 32 (j % 32)) else f

/-- All 2048 cells false. -/
def Framebuffer.blank : Framebuffer := Vector.replicate 64 0

/-- The framebuffer's new contents. -/
def State.setFb (s : State) (f : Framebuffer) : State := { s with fb := f }

/-- Emit one change notification: the step's output and the latch (R24, R97). -/
def State.emitNotify (s : State) : State := { s with notify := true, redrawPending := true }

/-! ## Keys (R17, R58) -/

/-- `keys[code] <- pressed`. -/
def State.applyKey (s : State) (e : KeyEvent) : State :=
  { s with keys := s.keys.set e.code e.pressed }

/-- `wait <- w` (R22). -/
def State.setWait (s : State) (w : Option Index) : State := { s with wait := w }

/-- `queue <- q` (R21). -/
def State.setQueue (s : State) (q : List KeyEvent) : State := { s with queue := q }

/-- The lowest-indexed held key (R104). -/
def State.lowestHeld (s : State) : Option Index :=
  (List.finRange 16).find? fun k => s.keys[k]

/-! ## Faults (R106 to R111) -/

/-- `fault <- some (cause, info)` (R23, R107). -/
def State.setFault (s : State) (cause : FaultCause) (info : Nat) : State :=
  { s with fault := some ⟨cause, info⟩ }

/-- Taking a fault, as R107 describes its entry: the fault record is written, and control goes
nowhere; there is no vector, no saved program counter and no mode to change. The caller hands over the
state with `pc` as R110's table has it and with no write of the faulting instruction (R108). There is
no return from a fault: only `Reset` clears the record (R111). -/
def takeFault (cause : FaultCause) (info : Nat) (s : State) : Host.Outcome State Fault Refusal :=
  .next (s.setFault cause info)

end Sys2Proof.Machine
end

