-- ==== Sys2Proof/Machine/Agents.lean ====
section
/-! DEFINITION. The steps of the agents beside the dispatcher, and the host's transactions
(spec/10_state.md R29, spec/20_memory.md R44, spec/60_exceptions.md R114 to R118,
spec/70_reset_and_hazards.md R123). All but `load` are enabled in every state (R122). -/

namespace Sys2Proof.Machine

/-- A timer's decrement with its floor of zero (R114). -/
def countDown (b : Byte) : Byte := if b = 0 then 0 else b - 1

/-- `Tick` (R114): both decrements in one atomic step (D18). -/
def State.tick (s : State) : State := (s.setDT (countDown s.DT)).setST (countDown s.ST)

/-- `KeyEvent(code, pressed)` (R115). -/
def State.enqueue (s : State) (e : KeyEvent) : State := s.setQueue (s.queue ++ [e])

/-- `RedrawAck` (R116). -/
def State.redrawAck (s : State) : State := { s with redrawPending := false }

/-- `ChannelFail` (R118): records the fault at once, unless one is recorded (D24). -/
def State.channelFail (s : State) : State :=
  match s.fault with
  | none => s.setFault .channelBroken 0
  | some _ => s

/-- `Load(image)` (R44): accepted only between `Reset` and the first `Step` and only once; bytes
beyond 3584 are dropped; at any other time it has no effect (D27). -/
def State.load (s : State) (image : List Byte) : State :=
  match s.boot with
  | .fresh =>
    { s.storeBytes Config.progBase (image.take Config.progMax) with boot := .loaded }
  | .loaded => s
  | .running => s

/-- `Reset` (R123): every cell of the spec to its reset value. The model's own fields stay: the
schedule goes on, and no random byte is drawn twice (log 15). -/
def State.resetCells (s : State) : State :=
  { State.reset with draws := s.draws, schedule := s.schedule }

end Sys2Proof.Machine
end

