-- ==== Sys2Proof/Machine/Flags.lean ====
section
/-! DEFINITION. The results and flags of the arithmetic instructions (spec/42_alu.md R79 to R83, R85,
R86): everything is unsigned, computed exactly on naturals and narrowed at the end. -/

namespace Sys2Proof.Machine

/-- A result with the value of `VF`. -/
structure AluOut where
  result : Byte
  flag : Byte
  deriving DecidableEq, Repr

/-- `1 if c else 0`, as a byte. -/
def flagByte (c : Bool) : Byte := if c then 1 else 0

/-- Add, `VF` = carry out of bit 7 (R79). -/
def aluAdd (a b : Byte) : AluOut where
  result := BitVec.ofNat 8 ((a.toNat + b.toNat) % 256)
  flag := flagByte (decide (a.toNat + b.toNat > 255))

/-- Subtract, `VF` = (a > b), strict (R80). -/
def aluSub (a b : Byte) : AluOut where
  result := BitVec.ofNat 8 ((a.toNat + 256 - b.toNat) % 256)
  flag := flagByte (decide (a.toNat > b.toNat))

/-- Shift right by one, `VF` = bit 0 before the shift (R81). -/
def aluShr (a : Byte) : AluOut where
  result := a >>> 1
  flag := flagByte (a.getLsbD 0)

/-- Shift left by one, `VF` = bit 7 before the shift (R83). -/
def aluShl (a : Byte) : AluOut where
  result := BitVec.ofNat 8 (a.toNat <<< 1 % 256)
  flag := flagByte (a.getLsbD 7)

/-- The operation of `8xy2`: the switch `ALU_AND_MODE` (R77, D7; log 6). -/
def aluAnd (mode : Config.AluAndMode) (a b : Byte) : Byte :=
  match mode with
  | .union => a ||| b
  | .intersect => a &&& b

/-- R85: `V[15]` is written first and `V[x]` second, so with `x = F` the result stays (D9). -/
def State.setFlagThenReg (s : State) (x : Index) (o : AluOut) : State :=
  (s.setReg flagIndex o.flag).setReg x o.result

end Sys2Proof.Machine
end

