-- ==== Sys2Proof/Machine/Operands.lean ====
section
/-! DEFINITION. The operand forms: the array index a register names, the effective addresses of a
transfer and its bounds check, the sprite, the decimal digits, the register blocks
(spec/43_index_memory.md R93, spec/44_display.md R96, spec/60_exceptions.md R109). -/

namespace Sys2Proof.Machine

/-- `zext_16(nnn)` (R48). -/
def zext16 (nnn : BitVec 12) : Word := nnn.setWidth 16

/-- The index a byte names in a sixteen-entry array, if it is one; nothing is masked (R106, D30). -/
def indexOf (b : Byte) : Option Index :=
  if h : b.toNat < 16 then some ⟨b.toNat, h⟩ else none

/-- The index a word names in the call stack, if it is one (R15). -/
def stackIndex (n : Nat) : Option Index := if h : n < 16 then some ⟨n, h⟩ else none

/-! ## Transfers at `I` (R93) -/

/-- The lowest address above 4095 of a transfer of `len` bytes at `base`, if there is one: a transfer
touches `base .. base + len - 1`, none when `len` is 0, and `info` is `max(base, 4096)`. -/
def transferFault (base : Word) (len : Nat) : Option Nat :=
  if len = 0 ∨ base.toNat + len ≤ Config.memSize then none else some (max base.toNat Config.memSize)

/-- The `len` bytes at ascending addresses from `a`. -/
def State.bytesFrom (s : State) (a len : Nat) : List Byte :=
  (List.range len).map fun k => s.byteAt (a + k)

/-- `V[0] .. V[x]` in order (R91). -/
def State.regBlock (s : State) (x : Index) : List Byte := s.V.toList.take (x.val + 1)

/-- `for k in 0 .. x: V[k] <- memory[I + k]`; registers above `x` keep their values (R92). -/
def State.loadBlock (s : State) (x : Index) : State :=
  { s with V := Vector.ofFn fun k : Fin 16 =>
      if k ≤ x then s.byteAt (s.I.toNat + k.val) else s.V[k] }

/-- Hundreds, tens and ones of a byte, one digit a byte (R90). -/
def bcdDigits (b : Byte) : List Byte :=
  [BitVec.ofNat 8 (b.toNat / 100), BitVec.ofNat 8 (b.toNat / 10 % 10), BitVec.ofNat 8 (b.toNat % 10)]

/-! ## Sprites (R96) -/

/-- Column `col` of a sprite row: bit 7 is column 0, the leftmost (D16). -/
def spriteBit (b : Byte) (col : Nat) : Bool := b.getLsbD (7 - col)

/-- The cell a sprite's row and column fall on: every pixel wraps on its own. -/
def spriteCell (vx vy : Byte) (row col : Nat) : Nat :=
  cellIndex ((vx.toNat + col) % 64) ((vy.toNat + row) % 32)

/-- A drawing in progress: the framebuffer and R96's two flags. -/
structure Canvas where
  fb : Framebuffer
  collision : Bool
  changed : Bool
  deriving DecidableEq, Repr

/-- XOR a 1 bit into cell `j`. -/
def Canvas.flip (c : Canvas) (j : Nat) : Canvas where
  fb := c.fb.flip j
  collision := c.collision || c.fb.cell j
  changed := true

/-- The inner loop of R96: one sprite row of 8 pixels. -/
def Canvas.drawRow (c : Canvas) (vx vy : Byte) (row : Nat) (b : Byte) : Canvas :=
  (List.range 8).foldl (init := c) fun c col =>
    if spriteBit b col then c.flip (spriteCell vx vy row col) else c

/-- The outer loop of R96: `n` sprite rows read from `memory[base ..]`. -/
def State.drawSprite (s : State) (vx vy : Byte) (base n : Nat) : Canvas :=
  (List.range n).foldl (init := ⟨s.fb, false, false⟩) fun c row =>
    c.drawRow vx vy row (s.byteAt (base + row))

end Sys2Proof.Machine
end

