-- ==== Sys2Proof/Machine/Alu.lean ====
section
/-! DEFINITION. Register loads, arithmetic, logic, shifts and random (spec/42_alu.md R73 to R86). None
of these instructions faults. -/

namespace Sys2Proof.Machine

/-- LD Vx,kk (R73). -/
def execLdImm (x : Index) (kk : Byte) (s : State) : Host.Outcome State Fault Refusal :=
  .next (s.setReg x kk)

/-- ADD Vx,kk (R74): wraps, and sets no flag (D10). -/
def execAddImm (x : Index) (kk : Byte) (s : State) : Host.Outcome State Fault Refusal :=
  .next (s.setReg x (aluAdd (s.reg x) kk).result)

/-- LD Vx,Vy (R75). -/
def execLdReg (x y : Index) (s : State) : Host.Outcome State Fault Refusal :=
  .next (s.setReg x (s.reg y))

/-- OR Vx,Vy (R76). -/
def execOrReg (x y : Index) (s : State) : Host.Outcome State Fault Refusal :=
  .next (s.setReg x (s.reg x ||| s.reg y))

/-- AND Vx,Vy (R77): computes what the switch `ALU_AND_MODE` says, OR on this hardware. -/
def execAndReg (x y : Index) (s : State) : Host.Outcome State Fault Refusal :=
  .next (s.setReg x (aluAnd Config.aluAndMode (s.reg x) (s.reg y)))

/-- XOR Vx,Vy (R78). -/
def execXorReg (x y : Index) (s : State) : Host.Outcome State Fault Refusal :=
  .next (s.setReg x (s.reg x ^^^ s.reg y))

/-- ADD Vx,Vy (R79, R85). -/
def execAddReg (x y : Index) (s : State) : Host.Outcome State Fault Refusal :=
  .next (s.setFlagThenReg x (aluAdd (s.reg x) (s.reg y)))

/-- SUB Vx,Vy (R80, R85). -/
def execSubReg (x y : Index) (s : State) : Host.Outcome State Fault Refusal :=
  .next (s.setFlagThenReg x (aluSub (s.reg x) (s.reg y)))

/-- SHR Vx (R81, R85): in place; the field `y` is ignored (D8). -/
def execShr (x _y : Index) (s : State) : Host.Outcome State Fault Refusal :=
  .next (s.setFlagThenReg x (aluShr (s.reg x)))

/-- SUBN Vx,Vy (R82, R85). -/
def execSubnReg (x y : Index) (s : State) : Host.Outcome State Fault Refusal :=
  .next (s.setFlagThenReg x (aluSub (s.reg y) (s.reg x)))

/-- SHL Vx (R83, R85): in place; the field `y` is ignored (D8). -/
def execShl (x _y : Index) (s : State) : Host.Outcome State Fault Refusal :=
  .next (s.setFlagThenReg x (aluShl (s.reg x)))

/-- RND Vx,kk (R84): one random byte is sampled, masked by a true AND (R26; log 3). -/
def execRnd (x : Index) (kk : Byte) (s : State) : Host.Outcome State Fault Refusal :=
  .next (s.setReg x (Config.rand s.draws &&& kk)).countDraw

end Sys2Proof.Machine
end

