-- ==== Sys2Proof/Machine/Display.lean ====
section
/-! DEFINITION. The display instructions and their change notification (spec/44_display.md R94 to
R98). -/

namespace Sys2Proof.Machine

/-- Emit the notification if the framebuffer was changed (R97). -/
def State.notifyIf (s : State) (c : Bool) : State := if c then s.emitNotify else s

/-- CLS (R95): a notification only if some pixel was set. -/
def execCls (s : State) : Host.Outcome State Fault Refusal :=
  .next ((s.setFb Framebuffer.blank).notifyIf (s.fb != Framebuffer.blank))

/-- DRW Vx,Vy,n (R96): the coordinates and `I` are read first, `VF` is written last (R85). -/
def execDrw (x y : Index) (n : Nat) (s : State) : Host.Outcome State Fault Refusal :=
  match transferFault s.I n with
  | some info => takeFault .memIndex info s
  | none =>
    let c := s.drawSprite (s.reg x) (s.reg y) s.I.toNat n
    .next (((s.setFb c.fb).setReg flagIndex (flagByte c.collision)).notifyIf c.changed)

end Sys2Proof.Machine
end

