-- ==== Sys2Proof/Machine/Flow.lean ====
section
/-! DEFINITION. Control transfer: RET, JP, CALL, the register skips, JP V0 (spec/41_flow.md R64 to
R72). On entry `pc` already holds the instruction's address plus 2 (R60). -/

namespace Sys2Proof.Machine

/-- A skip: 2 more on the advanced `pc` when the condition holds (R67). -/
def State.skipIf (s : State) (c : Bool) : State := if c then s.advance else s

/-- RET (R64): `sp = 0`, or an `sp` outside the stack, faults with `info = sp` (D11). -/
def execRet (s : State) : Host.Outcome State Fault Refusal :=
  if s.sp = 0 then takeFault .stackIndex 0 s
  else
    match stackIndex s.sp.toNat with
    | some j => .next (s.pop j)
    | none => takeFault .stackIndex s.sp.toNat s

/-- JP nnn (R65). -/
def execJp (nnn : BitVec 12) (s : State) : Host.Outcome State Fault Refusal :=
  .next (s.setPc (zext16 nnn))

/-- CALL nnn (R66): the pushed value is the address after the call; a full stack faults with
`info = sp + 1` (D12). -/
def execCall (nnn : BitVec 12) (s : State) : Host.Outcome State Fault Refusal :=
  match stackIndex (s.sp.toNat + 1) with
  | some j => .next ((s.push j s.pc).setPc (zext16 nnn))
  | none => takeFault .stackIndex (s.sp.toNat + 1) s

/-- SE Vx,kk (R67). -/
def execSeImm (x : Index) (kk : Byte) (s : State) : Host.Outcome State Fault Refusal :=
  .next (s.skipIf (s.reg x == kk))

/-- SNE Vx,kk (R68). -/
def execSneImm (x : Index) (kk : Byte) (s : State) : Host.Outcome State Fault Refusal :=
  .next (s.skipIf (s.reg x != kk))

/-- SE Vx,Vy (R69). -/
def execSeReg (x y : Index) (s : State) : Host.Outcome State Fault Refusal :=
  .next (s.skipIf (s.reg x == s.reg y))

/-- SNE Vx,Vy (R70). -/
def execSneReg (x y : Index) (s : State) : Host.Outcome State Fault Refusal :=
  .next (s.skipIf (s.reg x != s.reg y))

/-- JP V0,nnn (R71): a 16-bit sum, not reduced to 12 bits. -/
def execJpV0 (nnn : BitVec 12) (s : State) : Host.Outcome State Fault Refusal :=
  .next (s.setPc (zext16 nnn + (s.reg 0).setWidth 16))

end Sys2Proof.Machine
end

