-- ==== Sys2Proof/Machine/IndexMemory.lean ====
section
/-! DEFINITION. The address register and the memory transfers (spec/43_index_memory.md R87 to R93).
A transfer checks its whole range before it writes anything, and leaves `I` alone (R93, D14, D15). -/

namespace Sys2Proof.Machine

/-- LD I,nnn (R87). -/
def execLdI (nnn : BitVec 12) (s : State) : Host.Outcome State Fault Refusal :=
  .next (s.setI (zext16 nnn))

/-- ADD I,Vx (R88): no check against 4096; a sum above 0xFFFF faults (D13). -/
def execAddI (x : Index) (s : State) : Host.Outcome State Fault Refusal :=
  if s.I.toNat + (s.reg x).toNat > 0xFFFF then
    takeFault .addrOverflow (s.I.toNat + (s.reg x).toNat) s
  else .next (s.setI (BitVec.ofNat 16 (s.I.toNat + (s.reg x).toNat)))

/-- LD F,Vx (R89): a glyph number above 15 faults (D30). -/
def execLdF (x : Index) (s : State) : Host.Outcome State Fault Refusal :=
  match indexOf (s.reg x) with
  | some d => .next (s.setI s.fontOffset[d])
  | none => takeFault .fontIndex (s.reg x).toNat s

/-- LD B,Vx (R90). -/
def execLdB (x : Index) (s : State) : Host.Outcome State Fault Refusal :=
  match transferFault s.I 3 with
  | some info => takeFault .memIndex info s
  | none => .next (s.storeBytes s.I.toNat (bcdDigits (s.reg x)))

/-- LD [I],Vx (R91). -/
def execStoreRegs (x : Index) (s : State) : Host.Outcome State Fault Refusal :=
  match transferFault s.I (x.val + 1) with
  | some info => takeFault .memIndex info s
  | none => .next (s.storeBytes s.I.toNat (s.regBlock x))

/-- LD Vx,[I] (R92). -/
def execLoadRegs (x : Index) (s : State) : Host.Outcome State Fault Refusal :=
  match transferFault s.I (x.val + 1) with
  | some info => takeFault .memIndex info s
  | none => .next (s.loadBlock x)

end Sys2Proof.Machine
end

