-- ==== Sys2Proof/Machine/KeysTimers.lean ====
section
/-! DEFINITION. The key and timer instructions (spec/45_keys_timers.md R99 to R104). -/

namespace Sys2Proof.Machine

/-- SKP Vx (R99): a key number above 15 faults (D30). -/
def execSkp (x : Index) (s : State) : Host.Outcome State Fault Refusal :=
  match indexOf (s.reg x) with
  | some k => .next (s.skipIf s.keys[k])
  | none => takeFault .keyIndex (s.reg x).toNat s

/-- SKNP Vx (R100): a key number above 15 faults, it does not count as not pressed (D30). -/
def execSknp (x : Index) (s : State) : Host.Outcome State Fault Refusal :=
  match indexOf (s.reg x) with
  | some k => .next (s.skipIf (!s.keys[k]))
  | none => takeFault .keyIndex (s.reg x).toNat s

/-- LD Vx,DT (R101). -/
def execLdVxDT (x : Index) (s : State) : Host.Outcome State Fault Refusal :=
  .next (s.setReg x s.DT)

/-- LD DT,Vx (R102). -/
def execLdDTVx (x : Index) (s : State) : Host.Outcome State Fault Refusal :=
  .next (s.setDT (s.reg x))

/-- LD ST,Vx (R103). -/
def execLdSTVx (x : Index) (s : State) : Host.Outcome State Fault Refusal :=
  .next (s.setST (s.reg x))

/-- LD Vx,K (R104): the lowest held key at once, else the key-wait state (R22, D21). -/
def execLdVxK (x : Index) (s : State) : Host.Outcome State Fault Refusal :=
  match s.lowestHeld with
  | some k => .next (s.setReg x (BitVec.ofNat 8 k.val))
  | none => .next (s.setWait (some x))

end Sys2Proof.Machine
end

