-- ==== Sys2Proof/Machine/Cycle.lean ====
section
/-! DEFINITION. The dispatcher's step: drain, fetch, decode, execute, the key-wait state and the halted
state (spec/40_cycle.md R57 to R62), and the transactions of all agents (spec/10_state.md R29). -/

namespace Sys2Proof.Machine

/-- Phase 1 (R58): apply every queued event in order, oldest first, and empty the queue. -/
def State.drain (s : State) : State := (s.queue.foldl State.applyKey s).setQueue []

/-- The two bytes at `pc`, as a word: big-endian (R34). -/
def State.fetchWord (s : State) : Word :=
  wordOfBytes (s.byteAt s.pc.toNat) (s.byteAt (s.pc.toNat + 1))

/-- Phase 2's check (R59): the lowest address of the fetch that is out of range, if one is (D34). -/
def State.fetchFault (s : State) : Option Nat := transferFault s.pc 2

/-- Phases 2 and 3 (R59, R60): fetch, advance `pc`, decode, execute. A fetch fault leaves `pc`; an
illegal word faults after the advance, with the word as `info`. -/
def fetchAndExecute (s : State) : Host.Outcome State Fault Refusal :=
  match s.fetchFault with
  | some info => takeFault .memIndex info s
  | none =>
    match decodeWord s.fetchWord with
    | .ok i => exec i s.advance
    | .error _ => takeFault .unknownOpcode s.fetchWord.toNat s.advance

/-- The dispatcher's step in the key-wait state (R61, D21): one event is consumed, and a press ends the
wait; with an empty queue the dispatcher is held and nothing happens (log 7). -/
def waitStep (x : Index) (s : State) : State :=
  match s.queue with
  | [] => s
  | e :: rest =>
    let t := (s.applyKey e).setQueue rest
    if e.pressed then (t.setReg x (BitVec.ofNat 8 e.code.val)).setWait none else t

/-- What every `Step` begins with: the output `notify` is false (R57) and the boot ghost cell says that
a `Step` has happened (R44; log 9). -/
def State.beginStep (s : State) : State := { s with notify := false, boot := .running }

/-- `Step` (R57). -/
def dispatcherStep (s : State) : Host.Outcome State Fault Refusal :=
  match s.fault with
  | some _ => .next s.beginStep
  | none =>
    match s.wait with
    | some x => .next (waitStep x s.beginStep)
    | none => fetchAndExecute s.beginStep.drain

/-- One transaction of R29, on a state whose schedule no longer lists it. -/
def transact (t : Transaction) (s : State) : Host.Outcome State Fault Refusal :=
  match t with
  | .reset => .next s.resetCells
  | .load image => .next (s.load image)
  | .step => dispatcherStep s
  | .tick => .next s.tick
  | .keyEvent e => .next (s.enqueue e)
  | .channelFail => .next s.channelFail
  | .fbRead _ => .next s
  | .redrawAck => .next s.redrawAck

/-- The transaction that comes next: the schedule's first; an empty schedule means the dispatcher's
`Step` (log 2). -/
def State.nextUp (s : State) : Transaction := s.schedule.headD .step

/-- The schedule without the transaction that comes next. -/
def State.takeNext (s : State) : State := { s with schedule := s.schedule.tail }

/-- The transaction that comes next happens. -/
def nextTransaction (s : State) : Host.Outcome State Fault Refusal := transact s.nextUp s.takeNext

/-- The address at which a word can be placed for the fetch: `pc`, or `PC_RESET` where no word can be
fetched at `pc` (log 14). -/
def State.fetchPc (s : State) : Word :=
  match s.fetchFault with
  | none => s.pc
  | some _ => Config.pcReset

/-- The state whose very next step fetches and runs the given bytes: they are stored at `pc`, and what
would keep the dispatcher from fetching there (a pending schedule, a key-wait, a fault, a `pc` outside
memory) is taken away (log 14). -/
def State.placeForFetch (s : State) (bytes : List Byte) : State :=
  { s.storeBytes s.fetchPc.toNat bytes with
    pc := s.fetchPc, wait := none, fault := none, schedule := [] }

end Sys2Proof.Machine
end

