-- ==== Sys2Proof/Machine/Outputs.lean ====
section
/-! DEFINITION. The outputs of the block (spec/10_state.md R29): functions of the state, with no side
effect. `notify`, `redraw_pending`, `DT` and `ST` are the state's own cells. -/

namespace Sys2Proof.Machine

/-- Output `halted`: `fault ≠ none` (R23). -/
def State.halted (s : State) : Bool := s.fault.isSome

/-- The numeric code of a cause (R109). -/
def FaultCause.code : FaultCause → Nat
  | .unknownOpcode => 1
  | .memIndex => 2
  | .stackIndex => 3
  | .keyIndex => 4
  | .fontIndex => 5
  | .addrOverflow => 6
  | .channelBroken => 7

/-- Output `fault_cause`. -/
def State.faultCause (s : State) : Option Nat := s.fault.map fun r => r.cause.code

/-- Output `fault_info`. -/
def State.faultInfo (s : State) : Option Nat := s.fault.map fun r => r.info

/-- Output `waiting`: `wait ≠ none` (R22). -/
def State.waiting (s : State) : Bool := s.wait.isSome

/-- `FbRead(j)`: the cell `fb[j]`, 0..2047 (R116; the index is 11 bits, U18). -/
def State.fbRead (s : State) (j : BitVec 11) : Bool := s.fb.cell j.toNat

/-- The held outcome of a step (R8 (c), R61): waiting for a key with nothing queued. -/
def State.held (s : State) : Bool := !s.halted && s.waiting && s.queue.isEmpty

end Sys2Proof.Machine
end

