-- ==== Sys2Proof/Machine/Step.lean ====
section
/-! DEFINITION. One step of the machine: the next transaction of any agent (spec/40_cycle.md R56). -/

namespace Sys2Proof.Machine

/-- One atomic step: the transaction the schedule lists first, or the dispatcher's `Step` when it lists
none (R9, R56; log 2). -/
def step (s : State) : Host.Outcome State Fault Refusal := nextTransaction s

/-- The state with a table word stored where `step` fetches its next instruction, so that the very
next step runs exactly it (log 14). -/
def State.withFetchWord (s : State) (nbits w : Nat) : State := s.placeForFetch (tableBytes nbits w)

end Sys2Proof.Machine
end

