-- ==== Sys2Proof/Machine/Interleaving.lean ====
section
/-! DEFINITION. The interleavings of the agents without an end, and weak fairness (spec/40_cycle.md R56,
spec/70_reset_and_hazards.md R134). A state's `schedule` is a finite part of an interleaving; what a claim
that a run ends may assume is said here, over all of them. -/

namespace Sys2Proof.Machine

/-- A step of one of the four agents of R9, as against `Reset` and `Load`, which R56 puts before running,
and the optional `ChannelFail` (R118). -/
def Transaction.isAgentStep : Transaction → Bool
  | .step | .tick | .keyEvent _ | .fbRead _ | .redrawAck => true
  | .reset | .load _ | .channelFail => false

/-- Which transactions are enabled: a `Step` unless it is held (R8 (c), R61), a `Load` in the boot order
(R44), every other in every state (R115, R116, R122). -/
def State.enabled (s : State) : Transaction → Bool
  | .step => !s.held
  | .load _ => decide (s.boot = .fresh)
  | .reset | .tick | .keyEvent _ | .channelFail | .fbRead _ | .redrawAck => true

/-- An interleaving of the agents' steps without an end: any transaction at any place (R56). It is no
field of the state. -/
abbrev Interleaving := Nat → Transaction

/-- `run` is the run of the interleaving `σ` from `run 0`: each transaction is one atomic step. -/
def IsRun (σ : Interleaving) (run : Nat → State) : Prop := ∀ n, transact (σ n) (run n) = .next (run (n + 1))

/-- Weak fairness to `t`: if from some place on `t` is always enabled, it happens after that place. -/
def WeaklyFairTo (t : Transaction) (σ : Interleaving) (run : Nat → State) : Prop :=
  ∀ n, (∀ m, n ≤ m → (run m).enabled t = true) → ∃ m, n ≤ m ∧ σ m = t

/-- The only liveness the machine has (R56, D22): a run weakly fair to `Step` and to `Tick`, and nothing
more. -/
structure FairRun (σ : Interleaving) (run : Nat → State) : Prop where
  isRun : IsRun σ run
  step : WeaklyFairTo .step σ run
  tick : WeaklyFairTo .tick σ run

end Sys2Proof.Machine
end

