-- ==== Sys2Proof/Safety.lean ====
section
/-! DEFINITION. The terms statements are made in: the cells of the state as a reader sees them, what a
step leaves unchanged, when the dispatcher is about to fetch, the machine's invariant
(spec/10_state.md R27), the faults of spec/60_exceptions.md R109, and what a safe run is. -/

namespace Sys2Proof.Machine

/-! ## Cells and frames -/

/-- The places of the state, as fine as an instruction can change one: a register, a stack entry, a
key, a pixel, a byte of memory. -/
inductive Cell where
  | V (r : Index)
  | I
  | pc
  | sp
  | stack (j : Index)
  | DT
  | ST
  | key (k : Index)
  | pixel (j : Nat)
  | fontOffset (d : Index)
  | byte (a : Nat)
  | queue
  | wait
  | fault
  | notify
  | redrawPending
  | boot
  | draws
  | schedule
  deriving DecidableEq, Repr

/-- A cell reads the same in two states; memory is read byte by byte, the framebuffer pixel by
pixel. -/
def SameAt (c : Cell) (s t : State) : Prop :=
  match c with
  | .V r => t.reg r = s.reg r
  | .I => t.I = s.I
  | .pc => t.pc = s.pc
  | .sp => t.sp = s.sp
  | .stack j => t.stack[j] = s.stack[j]
  | .DT => t.DT = s.DT
  | .ST => t.ST = s.ST
  | .key k => t.keys[k] = s.keys[k]
  | .pixel j => t.fb.cell j = s.fb.cell j
  | .fontOffset d => t.fontOffset[d] = s.fontOffset[d]
  | .byte a => t.byteAt a = s.byteAt a
  | .queue => t.queue = s.queue
  | .wait => t.wait = s.wait
  | .fault => t.fault = s.fault
  | .notify => t.notify = s.notify
  | .redrawPending => t.redrawPending = s.redrawPending
  | .boot => t.boot = s.boot
  | .draws => t.draws = s.draws
  | .schedule => t.schedule = s.schedule

/-- Every cell outside `cells` reads the same before and after. -/
def OnlyChanges (cells : Set Cell) (s t : State) : Prop := ∀ c, c ∉ cells → SameAt c s t

/-- The bytes of a transfer of `len` bytes at `base`. -/
def bytesAt (base len : Nat) : Set Cell := fun c => ∃ k < len, c = .byte (base + k)

/-! ## The dispatcher's step -/

/-- The next step of the machine is the transaction `t` (R56). -/
def nextIs (s : State) (t : Transaction) : Prop := s.nextUp = t

/-- The next step is a dispatcher step, listed in the schedule or not. -/
def Dispatching (s : State) : Prop := nextIs s .step

/-- The next step drains, fetches and executes: a dispatcher step, not halted and not waiting. -/
def Ready (s : State) : Prop := Dispatching s ∧ s.fault = none ∧ s.wait = none

/-- The key flags after a list of events, oldest first (R58). -/
def keysAfter (keys : Vector Bool 16) (events : List KeyEvent) : Vector Bool 16 :=
  events.foldl (fun ks e => ks.set e.code e.pressed) keys

/-- The state the execute phase starts from (R57 to R60): the queue drained into the key flags, the
step's output cleared, `pc` past the instruction, and the `Step` taken off the schedule. -/
def fetched (s : State) : State :=
  { s with
    keys := keysAfter s.keys s.queue
    queue := []
    pc := s.pc + 2
    notify := false
    boot := .running
    schedule := s.schedule.tail }

/-- The instruction that the next step executes: a dispatcher step, neither halted nor waiting, whose
two bytes at `pc` lie in memory and decode to it, the byte at `pc` high (R34, R59, R60). -/
def Executes (s : State) (i : Instr) : Prop :=
  Ready s ∧ s.pc.toNat ≤ 4094 ∧
    decodeWord (wordOfBytes (s.byteAt s.pc.toNat) (s.byteAt (s.pc.toNat + 1))) = .ok i

/-! ## Flags (R11) -/

/-- The six instructions that write `VF` as a flag. -/
def writesFlag : Instr → Bool
  | .addReg _ _ | .subReg _ _ | .shr _ _ | .subnReg _ _ | .shl _ _ | .drw _ _ _ => true
  | _ => false

/-- The general register an instruction names as its destination; for `LD Vx,[I]` the last one of its
block. -/
def destination : Instr → Option Index
  | .ldImm x _ | .addImm x _ | .ldReg x _ | .orReg x _ | .andReg x _ | .xorReg x _ | .addReg x _
  | .subReg x _ | .shr x _ | .subnReg x _ | .shl x _ | .rnd x _ | .ldVxDT x | .ldVxK x
  | .loadRegs x => some x
  | _ => none

/-! ## Skips and program counter (R60) -/

/-- The condition of a skip instruction, on the state of the execute phase. -/
def skipCondition : Instr → State → Option Bool
  | .seImm x kk, s => some (decide (s.reg x = kk))
  | .sneImm x kk, s => some (decide (s.reg x ≠ kk))
  | .seReg x y, s => some (decide (s.reg x = s.reg y))
  | .sneReg x y, s => some (decide (s.reg x ≠ s.reg y))
  | .skp x, s => (indexOf (s.reg x)).map fun k => s.keys[k]
  | .sknp x, s => (indexOf (s.reg x)).map fun k => !s.keys[k]
  | _, _ => none

/-! ## Faults (R109) -/

/-- R109's table for the execute phase: the fault an instruction raises in a state, if any. -/
def faultOf (i : Instr) (s : State) : Option FaultRecord :=
  match i with
  | .ret =>
    if s.sp.toNat = 0 ∨ 15 < s.sp.toNat then some ⟨.stackIndex, s.sp.toNat⟩ else none
  | .call _ => if 15 < s.sp.toNat + 1 then some ⟨.stackIndex, s.sp.toNat + 1⟩ else none
  | .skp x | .sknp x =>
    if 15 < (s.reg x).toNat then some ⟨.keyIndex, (s.reg x).toNat⟩ else none
  | .ldF x => if 15 < (s.reg x).toNat then some ⟨.fontIndex, (s.reg x).toNat⟩ else none
  | .addI x =>
    if 0xFFFF < s.I.toNat + (s.reg x).toNat then
      some ⟨.addrOverflow, s.I.toNat + (s.reg x).toNat⟩
    else none
  | .ldB _ => if 4095 < s.I.toNat + 2 then some ⟨.memIndex, max s.I.toNat 4096⟩ else none
  | .storeRegs x | .loadRegs x =>
    if 4095 < s.I.toNat + x.val then some ⟨.memIndex, max s.I.toNat 4096⟩ else none
  | .drw _ _ n =>
    if 0 < n ∧ 4095 < s.I.toNat + n - 1 then some ⟨.memIndex, max s.I.toNat 4096⟩ else none
  | _ => none

/-! ## The sprite as a set of cells (R98) -/

/-- Cell `j` lies under a 1 bit of the `n`-row sprite at `base`, drawn at (vx, vy). -/
def InSprite (s : State) (vx vy : Byte) (base n j : Nat) : Prop :=
  ∃ row < n, ∃ col < 8, (s.byteAt (base + row)).getLsbD (7 - col) = true ∧
    j = ((vx.toNat + col) % 64) * 32 + (vy.toNat + row) % 32

/-! ## The invariant (R27) and safe runs -/

/-- R27, with the memory's canonical form: what every step keeps. -/
structure Inv (s : State) : Prop where
  /-- Memory is in its canonical form. -/
  memory : Memory.wf s.mem
  /-- (a): `sp` is an index of the call stack. -/
  sp : s.sp.toNat ≤ 15
  /-- (b): nothing writes the first stack entry. -/
  stackZero : s.stack[(0 : Index)] = 0
  /-- (c): every pushed value is a fetched instruction's address plus 2. -/
  stackEntries : ∀ j : Index, s.stack[j].toNat ≤ 4096
  /-- (c): the largest target is that of `JP V0`. -/
  pc : s.pc.toNat ≤ 0x10FE
  /-- (e): the font offset table is constant. -/
  fontOffset : ∀ d : Index, s.fontOffset[d].toNat = 5 * d.val
  /-- R23: the offending value is below 2^17. -/
  faultInfo : ∀ r, s.fault = some r → r.info < 2 ^ 17

/-- A run of `n` steps from `s` is safe: every step answers a next state and no state in it is halted,
since a halted state is never a success (R62, R107). -/
def SafeRun : Nat → State → Prop
  | 0, s => s.fault = none
  | n + 1, s => s.fault = none ∧ ∃ t, step s = .next t ∧ SafeRun n t

end Sys2Proof.Machine
end

