-- ==== Sys2Proof/Certificates/Slice0/Obligations.lean ====
section
/-! DEFINITION. The statements for the provers. `exec i s` is the execute phase of `i` in the state whose
`pc` is already past the instruction (R60); `OnlyChanges cells s t` is the frame: every other register,
stack entry, key, pixel, byte of memory and other cell reads the same. A row D<n> is the spec's own
decision of spec/92_eei_decisions.md (log 18; D1 is log 5, D3 log 4, D7 log 6, D20 log 3). -/

open Sys2Proof Sys2Proof.Machine

/-! ## Encoding -/

/-- R46 to R50: no bit of an encoding is dropped. Which low nibble or low byte is which instruction is the
spec's decisions D6 and D17 (log 18). -/
def Obligations.DecodeOfEncodeGivesInstruction : Prop :=
  ∀ i : Instr, i.wellFormed = true → decodeWord (encode i) = .ok i

/-- R47 to R50: a legal word is the encoding of the instruction it decodes to, which is well-formed. The exact
comparison of every constant digit is the spec's decision D5, which digits are which instruction its D6 and
D17 (log 18). -/
def Obligations.EncodeOfDecodeGivesWord : Prop :=
  ∀ (op : Word) (i : Instr), decodeWord op = .ok i → i.wellFormed = true ∧ encode i = op

/-- R49, R50: a word is legal exactly when it matches a row of the map, the row is that of its
instruction, and no word matches two of the 34 rows. The exact comparison of every constant digit is the
spec's decision D5, that no row is `0nnn` its D4, which digits are which instruction its D6 and D17
(log 18). -/
def Obligations.DecodeFollowsOpcodeMap : Prop :=
  (∀ op : Word, (∃ i, decodeWord op = .ok i) ↔ ∃ r ∈ opcodeRows, op &&& r.mask = r.pattern) ∧
  (∀ (op : Word) (i : Instr), decodeWord op = .ok i →
    i.row ∈ opcodeRows ∧ op &&& i.row.mask = i.row.pattern) ∧
  opcodeRows.length = 34 ∧
  opcodeRows.Pairwise fun r q =>
    ∀ op : Word, ¬ (op &&& r.mask = r.pattern ∧ op &&& q.mask = q.pattern)

/-- R51: the illegal words are exactly those of its table, and a step that fetches one faults with the
word as `info` and `pc` advanced. That `0nnn` is illegal is the spec's decision D4, the exact
comparison of every constant digit its D5 (log 18). -/
def Obligations.IllegalWordsFault : Prop :=
  (∀ op : Word, (∀ i, decodeWord op ≠ .ok i) ↔
    (op.toNat < 0x1000 ∧ op.toNat ≠ 0x00E0 ∧ op.toNat ≠ 0x00EE) ∨
    ((op.toNat / 0x1000 = 0x5 ∨ op.toNat / 0x1000 = 0x9) ∧ op.toNat % 16 ≠ 0) ∨
    (op.toNat / 0x1000 = 0x8 ∧ 7 < op.toNat % 16 ∧ op.toNat % 16 ≠ 0xE) ∨
    (op.toNat / 0x1000 = 0xE ∧ op.toNat % 256 ≠ 0x9E ∧ op.toNat % 256 ≠ 0xA1) ∨
    (op.toNat / 0x1000 = 0xF ∧
      op.toNat % 256 ∉ [0x07, 0x0A, 0x15, 0x18, 0x1E, 0x29, 0x33, 0x55, 0x65])) ∧
  ∀ s : State, Ready s → s.pc.toNat ≤ 4094 →
    (∀ i, decodeWord (wordOfBytes (s.byteAt s.pc.toNat) (s.byteAt (s.pc.toNat + 1))) ≠ .ok i) →
    ∃ t, step s = .next t ∧
      t.fault = some ⟨.unknownOpcode,
        (s.byteAt s.pc.toNat).toNat * 256 + (s.byteAt (s.pc.toNat + 1)).toNat⟩ ∧
      t.pc.toNat = s.pc.toNat + 2 ∧ OnlyChanges {.fault} (fetched s) t

/-- Words written out from R50's patterns decode to the instructions they stand for. That `8127` is SUBN is the
spec's decision D6, that `5121` and `0000` are illegal its D5 and D4 (log 18). -/
def Obligations.SampleWordsDecode : Prop :=
  decodeWord 0x00E0 = .ok .cls ∧ decodeWord 0x00EE = .ok .ret ∧
  decodeWord 0x10E0 = .ok (.jp 0x0E0) ∧ decodeWord 0x6A05 = .ok (.ldImm 10 0x05) ∧
  decodeWord 0x8127 = .ok (.subnReg 1 2) ∧ decodeWord 0xD12F = .ok (.drw 1 2 15) ∧
  decodeWord 0xE1A1 = .ok (.sknp 1) ∧ decodeWord 0xF165 = .ok (.loadRegs 1) ∧
  decodeWord 0x5121 = .error (.illegalWord 0x5121) ∧
  decodeWord 0x0000 = .error (.illegalWord 0x0000)

/-! ## The cycle -/

/-- R57 to R60: when the dispatcher's step, listed in the schedule or not (log 2), finds the two bytes at
`pc`, high byte first, to be a legal word, the step is the instruction's execute phase on the state with the
queue drained into the keys, `pc` advanced by 2, the step's output cleared and the `Step` taken off the
schedule. -/
def Obligations.StepRunsDecodedInstruction : Prop :=
  ∀ (s : State) (i : Instr), Ready s → s.pc.toNat ≤ 4094 →
    decodeWord (wordOfBytes (s.byteAt s.pc.toNat) (s.byteAt (s.pc.toNat + 1))) = .ok i →
    step s = exec i (fetched s)

/-- R58: every step that is neither halted nor in the key-wait consumes the whole queue, in order, so
that the last event of a key decides its flag, whatever is fetched. -/
def Obligations.DrainAppliesLastEvent : Prop :=
  ∀ s : State, Ready s → ∃ t, step s = .next t ∧ t.queue = [] ∧
    ∀ k : Index, t.keys[k] =
      match s.queue.reverse.find? (fun e => decide (e.code = k)) with
      | some e => e.pressed
      | none => s.keys[k]

/-- R59: a fetch beyond 4094 faults with the lowest out-of-range address. That `pc` is left unchanged and
the choice of `info` are the spec's decision D34. -/
def Obligations.FetchOutOfRangeFaults : Prop :=
  ∀ s : State, Ready s → 4094 < s.pc.toNat →
    ∃ t, step s = .next t ∧ t.fault = some ⟨.memIndex, max s.pc.toNat 4096⟩ ∧ t.pc = s.pc ∧
      OnlyChanges {.fault, .pc} (fetched s) t

/-- R62: a halted dispatcher's step, listed in the schedule or not, changes nothing and emits no notification
(the output `notify` is cleared, the ghost cell `boot` of R44 records the step, the `Step` leaves the
schedule). The queue is not drained. -/
def Obligations.HaltedStepChangesNothing : Prop :=
  ∀ (s : State) (r : FaultRecord), Dispatching s → s.fault = some r →
    ∃ t, step s = .next t ∧ t.notify = false ∧ t.schedule = s.schedule.tail ∧
      OnlyChanges {.notify, .boot, .schedule} s t

/-- R61, the spec's decision D21 (log 18): in the key-wait an empty queue holds the dispatcher; otherwise one
event is consumed and applied, a press ends the wait with its code in `V[x]`, a release does not. The output
`waiting` of R29 shows the wait (log 19). -/
def Obligations.KeyWaitConsumesOneEvent : Prop :=
  (∀ s : State, s.waiting = true ↔ s.wait ≠ none) ∧
  ∀ (s : State) (x : Index), Dispatching s → s.fault = none → s.wait = some x →
    (s.queue = [] → ∃ t, step s = .next t ∧ t.notify = false ∧ t.schedule = s.schedule.tail ∧
      OnlyChanges {.notify, .boot, .schedule} s t) ∧
    ∀ e rest, s.queue = e :: rest → ∃ t, step s = .next t ∧
      t.queue = rest ∧ t.keys[e.code] = e.pressed ∧ t.notify = false ∧
      t.schedule = s.schedule.tail ∧
      (e.pressed = true → t.wait = none ∧ (t.reg x).toNat = e.code.val ∧
        OnlyChanges {.queue, .key e.code, .wait, .V x, .notify, .boot, .schedule} s t) ∧
      (e.pressed = false → OnlyChanges {.queue, .key e.code, .notify, .boot, .schedule} s t)

/-- R8: no step ends the machine; a fault is a state too (log 1), and so is a held step (log 7). -/
def Obligations.EveryStepAnswersNext : Prop :=
  ∀ s : State, ∃ t, step s = .next t

/-- R60: the instruction's rule is applied to the state in which `pc` is already advanced; the net change of
`pc` over a whole step that does not fault, per instruction; a key-wait (a cell of the
spec's decision D21, log 18) is entered with `pc` advanced; an
illegal word faults with `pc` advanced and the word reported. -/
def Obligations.NetProgramCounterChange : Prop :=
  (∀ (s : State) (i : Instr), Ready s → s.pc.toNat ≤ 4094 →
    decodeWord (wordOfBytes (s.byteAt s.pc.toNat) (s.byteAt (s.pc.toNat + 1))) = .ok i →
    ∃ t, step s = .next t ∧ exec i (fetched s) = .next t ∧
      (∀ x, i = .ldVxK x → (∀ k : Index, (fetched s).keys[k] = false) → t.wait = some x) ∧
      (t.fault = none →
        match i with
        | .jp nnn | .call nnn => t.pc.toNat = nnn.toNat
        | .jpV0 nnn => t.pc.toNat = nnn.toNat + (s.reg 0).toNat
        | .ret => ∃ j : Index, s.sp.toNat = j.val ∧ t.pc = s.stack[j]
        | .seImm _ _ | .sneImm _ _ | .seReg _ _ | .sneReg _ _ | .skp _ | .sknp _ =>
          ∃ c, skipCondition i (fetched s) = some c ∧
            t.pc.toNat = s.pc.toNat + (if c then 4 else 2)
        | _ => t.pc.toNat = s.pc.toNat + 2)) ∧
  ∀ s : State, Ready s → s.pc.toNat ≤ 4094 →
    (∀ i, decodeWord (wordOfBytes (s.byteAt s.pc.toNat) (s.byteAt (s.pc.toNat + 1))) ≠ .ok i) →
    ∃ t, step s = .next t ∧ t.pc.toNat = s.pc.toNat + 2 ∧
      t.fault = some ⟨.unknownOpcode,
        (s.byteAt s.pc.toNat).toNat * 256 + (s.byteAt (s.pc.toNat + 1)).toNat⟩

/-! ## Faults -/

/-- R108, the spec's decision D14 (log 18): a fault is precise; the faulting instruction writes nothing but
the fault record. -/
def Obligations.FaultCommitsNothing : Prop :=
  ∀ (i : Instr) (s t : State), s.fault = none → exec i s = .next t → t.fault ≠ none →
    ∃ r, t = { s with fault := some r }

/-- R109's table: which instruction faults when, with which cause and `info`, that no other does, and the
numeric code of each cause; the outputs `halted`, `fault_cause` and `fault_info` show the record (R29, R107,
log 19). The codes and the split by array are the spec's decision D14, the single conditions its D11, D12,
D13 and D30, the cause `CHANNEL_BROKEN` its D24 (log 18). -/
def Obligations.FaultsFollowTheTable : Prop :=
  (∀ (i : Instr) (s : State), s.fault = none →
    ∃ t, exec i s = .next t ∧ t.fault = faultOf i s ∧
      (t.halted = true ↔ faultOf i s ≠ none)) ∧
  (∀ s : State, s.fault = none → s.halted = false ∧ s.faultCause = none ∧ s.faultInfo = none) ∧
  ∀ (s : State) (r : FaultRecord), s.fault = some r → s.halted = true ∧ s.faultInfo = some r.info ∧
    s.faultCause = some (match r.cause with
      | .unknownOpcode => 1
      | .memIndex => 2
      | .stackIndex => 3
      | .keyIndex => 4
      | .fontIndex => 5
      | .addrOverflow => 6
      | .channelBroken => 7)

/-- R27 (f), R111, R122 (D35): a recorded fault stays until `Reset`, and meanwhile only the timers, the
queue, the redraw latch, the step's output, the ghost `boot` and the schedule change. While no `Step` and
no `Load` has happened (`boot` is fresh) R44 still accepts a `Load` (log 9). -/
def Obligations.FaultStaysUntilReset : Prop :=
  ∀ (s : State) (r : FaultRecord), s.fault = some r → ¬ nextIs s .reset →
    ∃ t, step s = .next t ∧ t.fault = some r ∧
      (s.boot ≠ .fresh → OnlyChanges
        {.DT, .ST, .queue, .redrawPending, .notify, .boot, .schedule} s t)

/-! ## The invariant and reset -/

/-- R27 holds right after reset, where `pc` is the spec's decision D1 (log 5). -/
def Obligations.ResetStateMeetsInvariant : Prop := Inv State.reset

/-- R27, with the memory's canonical form: every step of every agent keeps the invariant. That RET and CALL
fault instead of leaving the stack is the spec's decisions D11 and D12, that a fault with no effect else is its
D14 (log 18). -/
def Obligations.EveryStepKeepsInvariant : Prop :=
  ∀ s t : State, Inv s → step s = .next t → Inv t

/-- R30, R123: every cell's reset value, right after reset and after a `Reset` in any state. `pc` is the
spec's decision D1 and a later `Reset` its D2; the glyph bytes are the parameter FONT (log 4). -/
def Obligations.ResetRestoresEveryCell : Prop :=
  (∀ (s : State) (rest : List Transaction), s.schedule = .reset :: rest → ∃ t, step s = .next t) ∧
  ∀ t : State,
    (t = State.reset ∨
      ∃ (s : State) (rest : List Transaction), s.schedule = .reset :: rest ∧ step s = .next t) →
    (∀ r : Index, t.reg r = 0 ∧ t.stack[r] = 0 ∧ t.keys[r] = false ∧
      t.fontOffset[r].toNat = 5 * r.val) ∧
    t.I = 0 ∧ t.pc = 0x200 ∧ t.sp = 0 ∧ t.DT = 0 ∧ t.ST = 0 ∧ (∀ j, t.fb.cell j = false) ∧
    (∀ a, a < 80 → some (t.byteAt a) = Config.font[a]?) ∧ (∀ a, 80 ≤ a → t.byteAt a = 0) ∧
    t.queue = [] ∧ t.wait = none ∧ t.fault = none ∧ t.redrawPending = false

/-! ## Who writes what -/

/-- R11, the spec's decision D10: `VF` changes only by the six flag-writing instructions or as the
destination register. -/
def Obligations.FlagRegisterWriters : Prop :=
  ∀ (i : Instr) (s t : State), exec i s = .next t → t.reg 15 ≠ s.reg 15 →
    writesFlag i = true ∨ destination i = some 15

/-- R45, R40: a byte of memory changes only by `Reset`, by an accepted `Load` inside the bytes it copies, by
`LD B,Vx` at `I .. I+2` or by `LD [I],Vx` at `I .. I+x`. When a `Load` is accepted is the spec's decision D27
(log 18). -/
def Obligations.MemoryWriters : Prop :=
  ∀ (s t : State) (a : Nat), step s = .next t → t.byteAt a ≠ s.byteAt a →
    nextIs s .reset ∨
    (s.boot = .fresh ∧ ∃ image, nextIs s (.load image) ∧ 0x200 ≤ a ∧
      a < 0x200 + min image.length 3584) ∨
    (∃ x, Executes s (.ldB x) ∧ s.I.toNat ≤ a ∧ a ≤ s.I.toNat + 2) ∨
    ∃ x, Executes s (.storeRegs x) ∧ s.I.toNat ≤ a ∧ a ≤ s.I.toNat + x.val

/-- R14, R15: `sp` changes only by `CALL`, `RET` and `Reset`, the stack only by `CALL` and `Reset`. -/
def Obligations.StackWriters : Prop :=
  ∀ s t : State, step s = .next t →
    (t.sp ≠ s.sp → nextIs s .reset ∨ Executes s .ret ∨ ∃ nnn, Executes s (.call nnn)) ∧
    (t.stack ≠ s.stack → nextIs s .reset ∨ ∃ nnn, Executes s (.call nnn))

/-- R12: `I` changes only by `LD I,nnn`, `ADD I,Vx`, `LD F,Vx` and `Reset`; that the transfers leave it
alone is the spec's decision D15. -/
def Obligations.AddressRegisterWriters : Prop :=
  ∀ s t : State, step s = .next t → t.I ≠ s.I →
    nextIs s .reset ∨ (∃ nnn, Executes s (.ldI nnn)) ∨ (∃ x, Executes s (.addI x)) ∨
      ∃ x, Executes s (.ldF x)

/-- R16, R105, R114: `DT` changes only by a tick, `LD DT,Vx` and `Reset`; `ST` only by a tick,
`LD ST,Vx` and `Reset`. -/
def Obligations.TimerWriters : Prop :=
  ∀ s t : State, step s = .next t →
    (t.DT ≠ s.DT → nextIs s .tick ∨ nextIs s .reset ∨ ∃ x, Executes s (.ldDTVx x)) ∧
    (t.ST ≠ s.ST → nextIs s .tick ∨ nextIs s .reset ∨ ∃ x, Executes s (.ldSTVx x))

/-- R97: an executed instruction emits a notification exactly when it is `CLS` and some cell was set, or
`DRW` with a 1 bit in its rows that does not fault; the latch collects it; no other step emits one. Pulse
and latch are the spec's decision D19, the output between steps is log 8. -/
def Obligations.NotificationRule : Prop :=
  (∀ (s : State) (i : Instr), Executes s i → ∃ t, step s = .next t ∧
    (t.notify = true ↔
      (i = .cls ∧ ∃ j < 2048, s.fb.cell j = true) ∨
      ∃ x y n, i = .drw x y n ∧ faultOf i s = none ∧
        ∃ j, InSprite s (s.reg x) (s.reg y) s.I.toNat n j) ∧
    t.redrawPending = (s.redrawPending || t.notify)) ∧
  ∀ s t : State, (∀ i, ¬ Executes s i) → step s = .next t →
    (t.notify = true → s.notify = true) ∧ (t.redrawPending = true → s.redrawPending = true)

/-! ## The other agents -/

/-- R114: a tick decrements both timers with a floor of zero and touches nothing else; both in one step
is the spec's decision D18. -/
def Obligations.TickCountsDown : Prop :=
  ∀ (s : State) (rest : List Transaction), s.schedule = .tick :: rest →
    ∃ t, step s = .next t ∧ t.DT.toNat = s.DT.toNat - 1 ∧ t.ST.toNat = s.ST.toNat - 1 ∧
      t.schedule = rest ∧ OnlyChanges {.DT, .ST, .schedule} s t

/-- R105: after `n` ticks a timer that held `v` holds `max(v - n, 0)`, and nothing else changed; and if the
ticker keeps running (weak fairness, R56), a timer that the dispatcher writes no more reaches 0 and stays
there. Both decrements in one step is the spec's decision D18, fairness its D22 (log 18). -/
def Obligations.TicksAccumulate : Prop :=
  (∀ (n : Nat) (s : State) (rest : List Transaction),
    s.schedule = List.replicate n .tick ++ rest →
    ∃ t, core.run n s = .next t ∧ t.DT.toNat = s.DT.toNat - n ∧ t.ST.toNat = s.ST.toNat - n ∧
      t.schedule = rest ∧ OnlyChanges {.DT, .ST, .schedule} s t) ∧
  ∀ (σ : Interleaving) (run : Nat → State) (n : Nat), FairRun σ run →
    ((∀ m, n ≤ m → σ m = .step → (run (m + 1)).DT = (run m).DT) →
      ∃ m, n ≤ m ∧ ∀ k, m ≤ k → (run k).DT = 0) ∧
    ((∀ m, n ≤ m → σ m = .step → (run (m + 1)).ST = (run m).ST) →
      ∃ m, n ≤ m ∧ ∀ k, m ≤ k → (run k).ST = 0)

/-- R115: a key event is appended to the queue, in every state, and changes only the queue; events leave it
only in dispatcher steps, oldest first (or by `Reset`, which empties it). -/
def Obligations.KeyEventAppends : Prop :=
  (∀ (s : State) (e : KeyEvent) (rest : List Transaction), s.schedule = .keyEvent e :: rest →
    ∃ t, step s = .next t ∧ t.queue = s.queue ++ [e] ∧ t.schedule = rest ∧
      OnlyChanges {.queue, .schedule} s t) ∧
  ∀ s t : State, step s = .next t → t.queue ≠ s.queue →
    nextIs s .reset ∨ (∃ e, nextIs s (.keyEvent e)) ∨
      (nextIs s .step ∧ ∃ n, t.queue = s.queue.drop n)

/-- R116: the framebuffer is mutated only by the dispatcher's `CLS` and `DRW` (and cleared by `Reset`),
each time with a notification; `FbRead` returns the cell and changes nothing; `RedrawAck` clears the latch
only. That a notification is a step's output and a latch is the spec's decision D19 (log 18), `FbRead`'s value
as an output function of the state is log 19. -/
def Obligations.DisplaySurface : Prop :=
  (∀ (s t : State) (j : Nat), step s = .next t → t.fb.cell j ≠ s.fb.cell j →
    nextIs s .reset ∨
      ((Executes s .cls ∨ ∃ x y n, Executes s (.drw x y n)) ∧ t.notify = true ∧
        t.redrawPending = true)) ∧
  (∀ (s : State) (j : BitVec 11) (rest : List Transaction), s.schedule = .fbRead j :: rest →
    s.fbRead j = s.fb.cell j.toNat ∧
      ∃ t, step s = .next t ∧ t.schedule = rest ∧ OnlyChanges {.schedule} s t) ∧
  ∀ (s : State) (rest : List Transaction), s.schedule = .redrawAck :: rest →
    ∃ t, step s = .next t ∧ t.redrawPending = false ∧ t.schedule = rest ∧
      OnlyChanges {.redrawPending, .schedule} s t

/-- R44: an accepted `Load` copies the image, cut at 3584 bytes, to 0x200 and changes nothing else (but
the ghost `boot`). That a `Load` at any other time has no effect is the spec's decision D27. -/
def Obligations.LoadCopiesImage : Prop :=
  ∀ (s : State) (image : List Byte) (rest : List Transaction), s.schedule = .load image :: rest →
    (s.boot = .fresh → ∃ t, step s = .next t ∧ t.boot = .loaded ∧ t.schedule = rest ∧
      (∀ a, t.byteAt a =
        if 0x200 ≤ a ∧ a < 0x1000 then (image[a - 0x200]?).getD (s.byteAt a) else s.byteAt a) ∧
      OnlyChanges (bytesAt 0x200 (min image.length 3584) ∪ {.boot, .schedule}) s t) ∧
    (s.boot ≠ .fresh → ∃ t, step s = .next t ∧ t.schedule = rest ∧ OnlyChanges {.schedule} s t)

/-- R118, the spec's decision D24: a broken input channel records its fault at once, unless a fault is
recorded already. -/
def Obligations.ChannelFailRecordsFault : Prop :=
  ∀ (s : State) (rest : List Transaction), s.schedule = .channelFail :: rest →
    ∃ t, step s = .next t ∧ t.schedule = rest ∧ OnlyChanges {.fault, .schedule} s t ∧
      t.fault = match s.fault with
        | none => some ⟨.channelBroken, 0⟩
        | some r => some r

/-! ## Control transfer -/

/-- R65: `1nnn` sets `pc` to `nnn` and changes nothing else. -/
def Obligations.JumpSetsProgramCounter : Prop :=
  (∀ op : Word, op &&& 0xF000 = 0x1000 → decodeWord op = .ok (.jp (nnnField op))) ∧
  ∀ (nnn : BitVec 12) (s : State), ∃ t, exec (.jp nnn) s = .next t ∧
    t.pc.toNat = nnn.toNat ∧ OnlyChanges {.pc} s t

/-- R66: `2nnn` pushes the address after the call and jumps; with no free entry it faults, writing
nothing (the spec's decision D12). -/
def Obligations.CallPushesReturnAddress : Prop :=
  (∀ op : Word, op &&& 0xF000 = 0x2000 → decodeWord op = .ok (.call (nnnField op))) ∧
  ∀ (nnn : BitVec 12) (s : State),
    (∀ j : Index, j.val = s.sp.toNat + 1 → ∃ t, exec (.call nnn) s = .next t ∧
      t.sp.toNat = s.sp.toNat + 1 ∧ t.stack[j] = s.pc ∧ t.pc.toNat = nnn.toNat ∧
      OnlyChanges {.pc, .sp, .stack j} s t) ∧
    (14 < s.sp.toNat → ∃ t, exec (.call nnn) s = .next t ∧
      t.fault = some ⟨.stackIndex, s.sp.toNat + 1⟩ ∧ OnlyChanges {.fault} s t)

/-- R64: `00EE` pops the return address and leaves the entry; with no call outstanding it faults (the
spec's decision D11), as with an `sp` outside the stack. The comparison of the whole word is its D5
(log 18). -/
def Obligations.ReturnPopsAddress : Prop :=
  (∀ op : Word, decodeWord op = .ok .ret ↔ op = 0x00EE) ∧
  ∀ s : State,
    (∀ j : Index, j ≠ 0 → j.val = s.sp.toNat → ∃ t, exec .ret s = .next t ∧
      t.pc = s.stack[j] ∧ t.sp.toNat + 1 = s.sp.toNat ∧ OnlyChanges {.pc, .sp} s t) ∧
    (s.sp.toNat = 0 ∨ 15 < s.sp.toNat → ∃ t, exec .ret s = .next t ∧
      t.fault = some ⟨.stackIndex, s.sp.toNat⟩ ∧ OnlyChanges {.fault} s t)

/-- R64, R66, R72: a return in a state with the stack as a call left it resumes at the instruction after
the call with the old `sp`. -/
def Obligations.ReturnUndoesCall : Prop :=
  ∀ (nnn : BitVec 12) (s t u : State), s.sp.toNat ≤ 14 → exec (.call nnn) s = .next t →
    u.sp = t.sp → u.stack = t.stack →
    ∃ w, exec .ret u = .next w ∧ w.pc = s.pc ∧ w.sp = s.sp ∧ OnlyChanges {.pc, .sp} u w

/-- R67, R68: `3xkk` and `4xkk` add 2 to the advanced `pc` when `V[x]` equals, or differs from, `kk`. -/
def Obligations.SkipOnImmediate : Prop :=
  (∀ op : Word, op &&& 0xF000 = 0x3000 → decodeWord op = .ok (.seImm (xField op) (kkField op))) ∧
  (∀ op : Word, op &&& 0xF000 = 0x4000 → decodeWord op = .ok (.sneImm (xField op) (kkField op))) ∧
  ∀ (x : Index) (kk : Byte) (s : State),
    (∃ t, exec (.seImm x kk) s = .next t ∧
      t.pc = (if s.reg x = kk then s.pc + 2 else s.pc) ∧ OnlyChanges {.pc} s t) ∧
    (∃ t, exec (.sneImm x kk) s = .next t ∧
      t.pc = (if s.reg x = kk then s.pc else s.pc + 2) ∧ OnlyChanges {.pc} s t)

/-- R69, R70: `5xy0` and `9xy0` add 2 to the advanced `pc` when `V[x]` equals, or differs from,
`V[y]`; with `x = y` the one always skips and the other never. That a nonzero low nibble
is illegal is the spec's decision D5 (log 18). -/
def Obligations.SkipOnRegisters : Prop :=
  (∀ op : Word, op &&& 0xF00F = 0x5000 → decodeWord op = .ok (.seReg (xField op) (yField op))) ∧
  (∀ op : Word, op &&& 0xF00F = 0x9000 → decodeWord op = .ok (.sneReg (xField op) (yField op))) ∧
  (∀ op : Word, op &&& 0xF000 = 0x5000 ∨ op &&& 0xF000 = 0x9000 → op &&& 0x000F ≠ 0 →
    decodeWord op = .error (.illegalWord op)) ∧
  ∀ (x y : Index) (s : State),
    (∃ t, exec (.seReg x y) s = .next t ∧
      t.pc = (if s.reg x = s.reg y then s.pc + 2 else s.pc) ∧ OnlyChanges {.pc} s t) ∧
    (∃ t, exec (.sneReg x y) s = .next t ∧
      t.pc = (if s.reg x = s.reg y then s.pc else s.pc + 2) ∧ OnlyChanges {.pc} s t)

/-- R71: `Bnnn` sets `pc` to the exact sum `nnn + V[0]`, which is not reduced to 12 bits. -/
def Obligations.JumpWithOffset : Prop :=
  (∀ op : Word, op &&& 0xF000 = 0xB000 → decodeWord op = .ok (.jpV0 (nnnField op))) ∧
  ∀ (nnn : BitVec 12) (s : State), ∃ t, exec (.jpV0 nnn) s = .next t ∧
    t.pc.toNat = nnn.toNat + (s.reg 0).toNat ∧ OnlyChanges {.pc} s t

/-- R63, the spec's decision D26 (log 18): a jump to itself drains the queue and leaves every other cell the
dispatcher owns unchanged; and no run of `step` from there faults, whatever steps of the four agents its
schedule lists. A schedule is finite, and after it only the dispatcher steps, the other agents silent for ever
(log 2, unsafe); a `ChannelFail`, a `Reset` or a `Load` in it would end this, so they are shut out. -/
def Obligations.SelfJumpIsFixedPoint : Prop :=
  ∀ s : State, Ready s → s.pc.toNat ≤ 4094 →
    (s.byteAt s.pc.toNat).toNat * 256 + (s.byteAt (s.pc.toNat + 1)).toNat = 0x1000 + s.pc.toNat →
    (∃ t, step s = .next t ∧ t.queue = [] ∧ t.schedule = s.schedule.tail ∧
      OnlyChanges ({.queue, .notify, .boot, .schedule} ∪ Set.range Cell.key) s t) ∧
    ((∀ t ∈ s.schedule, t.isAgentStep = true) → ∀ n, SafeRun n s)

/-! ## Registers and arithmetic -/

/-- R73, R75, R78: load immediate, copy and exclusive OR write `V[x]` and nothing else, `VF` included
unless `x = F`. That `8xy0` is the copy and `8xy3` the exclusive OR is the spec's decision D6, that `VF` is left
alone its D10 (log 18). -/
def Obligations.RegisterLoadsAndXor : Prop :=
  (∀ op : Word, op &&& 0xF000 = 0x6000 → decodeWord op = .ok (.ldImm (xField op) (kkField op))) ∧
  (∀ op : Word, op &&& 0xF00F = 0x8000 → decodeWord op = .ok (.ldReg (xField op) (yField op))) ∧
  (∀ op : Word, op &&& 0xF00F = 0x8003 → decodeWord op = .ok (.xorReg (xField op) (yField op))) ∧
  ∀ (x y : Index) (kk : Byte) (s : State),
    (∃ t, exec (.ldImm x kk) s = .next t ∧ t.reg x = kk ∧ OnlyChanges {.V x} s t) ∧
    (∃ t, exec (.ldReg x y) s = .next t ∧ t.reg x = s.reg y ∧ OnlyChanges {.V x} s t) ∧
    (∃ t, exec (.xorReg x y) s = .next t ∧ t.reg x = s.reg x ^^^ s.reg y ∧
      OnlyChanges {.V x} s t)

/-- R74, R76, R77: add immediate wraps and sets no flag (the spec's decision D10); OR and, on this
hardware, AND compute the union (D7) and leave `VF` alone unless `x = F`. -/
def Obligations.AddImmediateAndUnion : Prop :=
  ∀ (x y : Index) (kk : Byte) (s : State),
    (∃ t, exec (.addImm x kk) s = .next t ∧
      (t.reg x).toNat = ((s.reg x).toNat + kk.toNat) % 256 ∧ OnlyChanges {.V x} s t) ∧
    (∃ t, exec (.orReg x y) s = .next t ∧
      (∀ b, (t.reg x).getLsbD b = ((s.reg x).getLsbD b || (s.reg y).getLsbD b)) ∧
      OnlyChanges {.V x} s t) ∧
    (∃ t, exec (.andReg x y) s = .next t ∧
      (∀ b, (t.reg x).getLsbD b = ((s.reg x).getLsbD b || (s.reg y).getLsbD b)) ∧
      OnlyChanges {.V x} s t)

/-- R79, R80, R82 for every `x` and `y`: sum and differences modulo 256, `VF` the carry or the strict
comparison of the old operands. That with `x = F` the result stays, and that with `y = F` the old `VF` is
the operand, is the spec's decision D9. -/
def Obligations.ArithmeticWithFlag : Prop :=
  ∀ (x y : Index) (s : State) (a b : Nat), a = (s.reg x).toNat → b = (s.reg y).toNat →
    (∃ t, exec (.addReg x y) s = .next t ∧ (t.reg x).toNat = (a + b) % 256 ∧
      (x ≠ 15 → t.reg 15 = if 255 < a + b then 1 else 0) ∧ OnlyChanges {.V x, .V 15} s t) ∧
    (∃ t, exec (.subReg x y) s = .next t ∧ (t.reg x).toNat = (a + 256 - b) % 256 ∧
      (x ≠ 15 → t.reg 15 = if b < a then 1 else 0) ∧ OnlyChanges {.V x, .V 15} s t) ∧
    (∃ t, exec (.subnReg x y) s = .next t ∧ (t.reg x).toNat = (b + 256 - a) % 256 ∧
      (x ≠ 15 → t.reg 15 = if a < b then 1 else 0) ∧ OnlyChanges {.V x, .V 15} s t)

/-- R81, R83: the shifts move `V[x]` by one bit in place, whatever `y` is (the spec's decision D8), and
`VF` is the bit shifted out; with `x = F` the result stays (D9). -/
def Obligations.ShiftsInPlace : Prop :=
  ∀ (x y : Index) (s : State),
    (∃ t, exec (.shr x y) s = .next t ∧ (t.reg x).toNat = (s.reg x).toNat / 2 ∧
      (x ≠ 15 → (t.reg 15).toNat = (s.reg x).toNat % 2) ∧ OnlyChanges {.V x, .V 15} s t) ∧
    (∃ t, exec (.shl x y) s = .next t ∧ (t.reg x).toNat = (s.reg x).toNat * 2 % 256 ∧
      (x ≠ 15 → (t.reg 15).toNat = (s.reg x).toNat / 128) ∧ OnlyChanges {.V x, .V 15} s t)

/-- R84: `Cxkk` leaves a masked random byte in `V[x]`, for every value of the free byte: no bit outside
`kk` is set. The free byte and its counter are log 3 (D20). -/
def Obligations.RandomByteIsMasked : Prop :=
  ∀ (x : Index) (kk : Byte) (s : State), ∃ t, exec (.rnd x kk) s = .next t ∧
    t.reg x = Config.rand s.draws &&& kk ∧
    (∀ b, kk.getLsbD b = false → (t.reg x).getLsbD b = false) ∧ t.draws = s.draws + 1 ∧
    OnlyChanges {.V x, .draws} s t

/-! ## Address register and transfers -/

/-- R87: `Annn` sets `I` to `nnn` and changes nothing else. -/
def Obligations.LoadAddressRegister : Prop :=
  (∀ op : Word, op &&& 0xF000 = 0xA000 → decodeWord op = .ok (.ldI (nnnField op))) ∧
  ∀ (nnn : BitVec 12) (s : State), ∃ t, exec (.ldI nnn) s = .next t ∧
    t.I.toNat = nnn.toNat ∧ OnlyChanges {.I} s t

/-- R88, the spec's decision D13: `Fx1E` stores the exact sum, past 4095 too, and faults when it does not
fit 16 bits; `VF` is not written. -/
def Obligations.AddToAddressRegister : Prop :=
  ∀ (x : Index) (s : State),
    (s.I.toNat + (s.reg x).toNat ≤ 0xFFFF → ∃ t, exec (.addI x) s = .next t ∧
      t.I.toNat = s.I.toNat + (s.reg x).toNat ∧ OnlyChanges {.I} s t) ∧
    (0xFFFF < s.I.toNat + (s.reg x).toNat → ∃ t, exec (.addI x) s = .next t ∧
      t.fault = some ⟨.addrOverflow, s.I.toNat + (s.reg x).toNat⟩ ∧ OnlyChanges {.fault} s t)

/-- R89: `Fx29` sets `I` to the offset of glyph `V[x]`, `5 * V[x]` where the invariant holds; a glyph
number above 15 faults (the spec's decision D30). -/
def Obligations.PointAtGlyph : Prop :=
  ∀ (x : Index) (s : State),
    (∀ d : Index, (s.reg x).toNat = d.val → ∃ t, exec (.ldF x) s = .next t ∧
      t.I = s.fontOffset[d] ∧ (Inv s → t.I.toNat = 5 * (s.reg x).toNat) ∧
      OnlyChanges {.I} s t) ∧
    (15 < (s.reg x).toNat → ∃ t, exec (.ldF x) s = .next t ∧
      t.fault = some ⟨.fontIndex, (s.reg x).toNat⟩ ∧ OnlyChanges {.fault} s t)

/-- R90: `Fx33` stores hundreds, tens and ones at `I`, `I+1`, `I+2`; where one of them is above 4095 it
faults, and that it then stores nothing is the spec's decision D14. -/
def Obligations.StoreDecimalDigits : Prop :=
  ∀ (x : Index) (s : State),
    (s.I.toNat + 2 ≤ 4095 → ∃ t, exec (.ldB x) s = .next t ∧
      (t.byteAt s.I.toNat).toNat = (s.reg x).toNat / 100 ∧
      (t.byteAt (s.I.toNat + 1)).toNat = (s.reg x).toNat / 10 % 10 ∧
      (t.byteAt (s.I.toNat + 2)).toNat = (s.reg x).toNat % 10 ∧
      OnlyChanges (bytesAt s.I.toNat 3) s t) ∧
    (4095 < s.I.toNat + 2 → ∃ t, exec (.ldB x) s = .next t ∧
      t.fault = some ⟨.memIndex, max s.I.toNat 4096⟩ ∧ OnlyChanges {.fault} s t)

/-- R91: `Fx55` stores `V[0] .. V[x]` at `I .. I+x` and leaves `I` (the spec's decision D15); out of range
it faults and stores nothing (D14). -/
def Obligations.StoreRegisterBlock : Prop :=
  ∀ (x : Index) (s : State),
    (s.I.toNat + x.val ≤ 4095 → ∃ t, exec (.storeRegs x) s = .next t ∧
      (∀ k : Index, k ≤ x → t.byteAt (s.I.toNat + k.val) = s.reg k) ∧
      OnlyChanges (bytesAt s.I.toNat (x.val + 1)) s t) ∧
    (4095 < s.I.toNat + x.val → ∃ t, exec (.storeRegs x) s = .next t ∧
      t.fault = some ⟨.memIndex, max s.I.toNat 4096⟩ ∧ OnlyChanges {.fault} s t)

/-- R92: `Fx65` loads `V[0] .. V[x]` from `I .. I+x`, leaves the registers above `x` and `I` (the spec's
decision D15); out of range it faults and loads nothing (D14). -/
def Obligations.LoadRegisterBlock : Prop :=
  ∀ (x : Index) (s : State),
    (s.I.toNat + x.val ≤ 4095 → ∃ t, exec (.loadRegs x) s = .next t ∧
      (∀ k : Index, k ≤ x → t.reg k = s.byteAt (s.I.toNat + k.val)) ∧
      OnlyChanges {c | ∃ k ≤ x, c = .V k} s t) ∧
    (4095 < s.I.toNat + x.val → ∃ t, exec (.loadRegs x) s = .next t ∧
      t.fault = some ⟨.memIndex, max s.I.toNat 4096⟩ ∧ OnlyChanges {.fault} s t)

/-- R91, R92: a block stored and loaded again at the same `I` gives the registers back, whatever happened
to the registers in between. -/
def Obligations.StoreThenLoadRestoresRegisters : Prop :=
  ∀ (x : Index) (s t u : State), s.I.toNat + x.val ≤ 4095 →
    exec (.storeRegs x) s = .next t → u.I = t.I → (∀ a, u.byteAt a = t.byteAt a) →
    ∃ w, exec (.loadRegs x) u = .next w ∧ ∀ k : Index, k ≤ x → w.reg k = s.reg k

/-- R43, the spec's decision D28: a store to the next opcode's bytes is seen by the very next fetch. -/
def Obligations.StoreIsSeenByNextFetch : Prop :=
  ∀ (x : Index) (s t : State) (i : Instr), Ready s → 1 ≤ x.val → s.I = s.pc →
    s.pc.toNat + x.val ≤ 4095 → exec (.storeRegs x) s = .next t →
    decodeWord (wordOfBytes (s.reg 0) (s.reg 1)) = .ok i → step t = exec i (fetched t)

/-! ## Display -/

/-- R95: `00E0` clears all 2048 cells, and notifies only if one was set. The comparison of the whole word is the
spec's decision D5, the latch beside the step's output its D19 (log 18). -/
def Obligations.ClearScreen : Prop :=
  (∀ op : Word, decodeWord op = .ok .cls ↔ op = 0x00E0) ∧
  ∀ s : State, ∃ t, exec .cls s = .next t ∧ (∀ j, t.fb.cell j = false) ∧
    ((∃ j < 2048, s.fb.cell j = true) → t.notify = true ∧ t.redrawPending = true ∧
      OnlyChanges ({.notify, .redrawPending} ∪ Set.range Cell.pixel) s t) ∧
    ((∀ j < 2048, s.fb.cell j = false) → OnlyChanges ∅ s t)

/-- R96, R98 (a) to (c): a draw leaves the framebuffer XORed with the sprite at wrapped coordinates, `VF`
is 1 exactly when a set pixel was cleared and 0 otherwise, and a notification is emitted exactly when the
sprite has a 1 bit. The bit order of a row is the spec's decision D16, `I` unchanged its D15, the old `VF`
as a coordinate its D9, the latch beside the step's output its D19 (log 18). -/
def Obligations.DrawXorsSprite : Prop :=
  ∀ (x y : Index) (n : Nat) (s : State), n ≤ 15 → (n = 0 ∨ s.I.toNat + n - 1 ≤ 4095) →
    ∃ t, exec (.drw x y n) s = .next t ∧
      (∀ j, t.fb.cell j = true ↔
        Xor (s.fb.cell j = true) (InSprite s (s.reg x) (s.reg y) s.I.toNat n j)) ∧
      (t.reg 15 = 1 ∨ t.reg 15 = 0) ∧
      (t.reg 15 = 1 ↔
        ∃ j, InSprite s (s.reg x) (s.reg y) s.I.toNat n j ∧ s.fb.cell j = true) ∧
      (t.notify = true ↔
        s.notify = true ∨ ∃ j, InSprite s (s.reg x) (s.reg y) s.I.toNat n j) ∧
      (t.redrawPending = true ↔
        s.redrawPending = true ∨ ∃ j, InSprite s (s.reg x) (s.reg y) s.I.toNat n j) ∧
      OnlyChanges ({.V 15, .notify, .redrawPending} ∪ Set.range Cell.pixel) s t

/-- R98 (d), restored framebuffer: the same draw twice gives the framebuffer back. The spec's derived sentence
on the second `VF` ("1 iff M is not empty") does not follow from its own (a) and (b): the second draw clears the
cells of M that were clear before the first, so its `VF` is 1 exactly when there is one (log 17). -/
def Obligations.DrawTwiceRestores : Prop :=
  ∀ (x y : Index) (n : Nat) (s : State), n ≤ 15 → (n = 0 ∨ s.I.toNat + n - 1 ≤ 4095) →
    x ≠ 15 → y ≠ 15 →
    ∃ t u, exec (.drw x y n) s = .next t ∧ exec (.drw x y n) t = .next u ∧ u.fb = s.fb ∧
      (u.reg 15 = 1 ↔
        ∃ j, InSprite s (s.reg x) (s.reg y) s.I.toNat n j ∧ s.fb.cell j = false)

/-- R96: a draw with a row above 4095 faults; that it then draws nothing is the spec's decision D14. -/
def Obligations.DrawOutOfRangeFaults : Prop :=
  ∀ (x y : Index) (n : Nat) (s : State), 0 < n → 4095 < s.I.toNat + n - 1 →
    ∃ t, exec (.drw x y n) s = .next t ∧
      t.fault = some ⟨.memIndex, max s.I.toNat 4096⟩ ∧ OnlyChanges {.fault} s t

/-! ## Keys and timers -/

/-- R99, R100: `Ex9E` and `ExA1` skip by the key that `V[x]` numbers; a number above 15 faults in both (the
spec's decision D30). -/
def Obligations.SkipOnKey : Prop :=
  ∀ (x : Index) (s : State),
    (∀ k : Index, (s.reg x).toNat = k.val →
      (∃ t, exec (.skp x) s = .next t ∧
        t.pc = (if s.keys[k] = true then s.pc + 2 else s.pc) ∧ OnlyChanges {.pc} s t) ∧
      (∃ t, exec (.sknp x) s = .next t ∧
        t.pc = (if s.keys[k] = true then s.pc else s.pc + 2) ∧ OnlyChanges {.pc} s t)) ∧
    (15 < (s.reg x).toNat →
      (∃ t, exec (.skp x) s = .next t ∧
        t.fault = some ⟨.keyIndex, (s.reg x).toNat⟩ ∧ OnlyChanges {.fault} s t) ∧
      (∃ t, exec (.sknp x) s = .next t ∧
        t.fault = some ⟨.keyIndex, (s.reg x).toNat⟩ ∧ OnlyChanges {.fault} s t))

/-- R101, R102, R103: `Fx07` reads `DT`, `Fx15` writes `DT`, `Fx18` writes `ST`, and nothing else
changes. Which of the three does what is the spec's decision D17 (log 18). -/
def Obligations.TimerTransfers : Prop :=
  (∀ op : Word, op &&& 0xF0FF = 0xF007 → decodeWord op = .ok (.ldVxDT (xField op))) ∧
  (∀ op : Word, op &&& 0xF0FF = 0xF015 → decodeWord op = .ok (.ldDTVx (xField op))) ∧
  (∀ op : Word, op &&& 0xF0FF = 0xF018 → decodeWord op = .ok (.ldSTVx (xField op))) ∧
  ∀ (x : Index) (s : State),
    (∃ t, exec (.ldVxDT x) s = .next t ∧ t.reg x = s.DT ∧ OnlyChanges {.V x} s t) ∧
    (∃ t, exec (.ldDTVx x) s = .next t ∧ t.DT = s.reg x ∧ OnlyChanges {.DT} s t) ∧
    (∃ t, exec (.ldSTVx x) s = .next t ∧ t.ST = s.reg x ∧ OnlyChanges {.ST} s t)

/-- R104: with a key held, `Fx0A` gives the lowest held key at once and does not consult the queue; with
none held it enters the key-wait, a cell of the spec's decision D21. -/
def Obligations.WaitForKey : Prop :=
  ∀ (x : Index) (s : State),
    (∀ k : Index, s.keys[k] = true → (∀ j : Index, j < k → s.keys[j] = false) →
      ∃ t, exec (.ldVxK x) s = .next t ∧ (t.reg x).toNat = k.val ∧ OnlyChanges {.V x} s t) ∧
    ((∀ k : Index, s.keys[k] = false) →
      ∃ t, exec (.ldVxK x) s = .next t ∧ t.wait = some x ∧ OnlyChanges {.wait} s t)

/-! ## What cannot be observed -/

/-- R16, R24, R105: no step of any agent reads the sound timer (but the ticker, for itself) or the redraw
latch into anything else: two states that differ only there step to states that differ only there. -/
def Obligations.SoundTimerAndLatchAreUnread : Prop :=
  ∀ (s t : State) (v : Byte) (b : Bool), step s = .next t →
    ∃ u, step { s with ST := v, redrawPending := b } = .next u ∧
      OnlyChanges {.ST, .redrawPending} t u

/-! ## Interleavings -/

/-- R56, R134: the agents interleave in any order. Every interleaving without an end has a run from every
state; each finite part of such a run is a run of `step` on the schedule that lists it (log 2); and from every
state there is a run weakly fair to `Step` and `Tick`, which is what a claim that a run ends may assume (the
spec's decision D22, log 18). -/
def Obligations.EveryInterleavingRuns : Prop :=
  (∀ (σ : Interleaving) (s : State), ∃ run, run 0 = s ∧ IsRun σ run) ∧
  (∀ (σ : Interleaving) (run : Nat → State) (n : Nat) (rest : List Transaction), IsRun σ run →
    core.run n { run 0 with schedule := (List.range n).map σ ++ rest } =
      .next { run n with schedule := rest }) ∧
  ∀ s : State, ∃ σ run, run 0 = s ∧ FairRun σ run
end

