-- ==== Sys2Proof/Laws/Decode.lean ====
section
/-! SUPPORT. The fields of an instruction word as quotients and remainders, the words of the encoder as
sums, and what each field of an encoded word reads as. -/

namespace Sys2Proof

/-! ## Fields as numbers -/

theorem hiField_toNat (op : Word) : (hiField op).toNat = op.toNat / 4096 := by
  have := op.isLt
  simp only [hiField, BitVec.extractLsb'_toNat, Nat.shiftRight_eq_div_pow]
  omega

theorem xField_val (op : Word) : (xField op).val = op.toNat / 256 % 16 := by
  simp [xField, Nat.shiftRight_eq_div_pow]

theorem yField_val (op : Word) : (yField op).val = op.toNat / 16 % 16 := by
  simp [yField, Nat.shiftRight_eq_div_pow]

theorem nField_toNat (op : Word) : (nField op).toNat = op.toNat % 16 := by
  simp [nField, BitVec.extractLsb'_toNat]

theorem kkField_toNat (op : Word) : (kkField op).toNat = op.toNat % 256 := by
  simp [kkField, BitVec.extractLsb'_toNat]

theorem nnnField_toNat (op : Word) : (nnnField op).toNat = op.toNat % 4096 := by
  simp [nnnField, BitVec.extractLsb'_toNat]

/-! ## Encoded words as numbers -/

theorem encodeNNN_toNat (hi : BitVec 4) (nnn : BitVec 12) :
    (encodeNNN hi nnn).toNat = hi.toNat * 4096 + nnn.toNat := by
  have := nnn.isLt
  rw [encodeNNN, BitVec.toNat_append, ← Nat.shiftLeft_add_eq_or_of_lt this, Nat.shiftLeft_eq]

theorem encodeXKK_toNat (hi : BitVec 4) (x : Index) (kk : Byte) :
    (encodeXKK hi x kk).toNat = hi.toNat * 4096 + x.val * 256 + kk.toNat := by
  have hx : (BitVec.ofFin (w := 4) x).toNat < 2 ^ 4 := BitVec.isLt _
  have hk := kk.isLt
  rw [encodeXKK, BitVec.toNat_append, BitVec.toNat_append, ← Nat.shiftLeft_add_eq_or_of_lt hx,
    ← Nat.shiftLeft_add_eq_or_of_lt hk, Nat.shiftLeft_eq, Nat.shiftLeft_eq]
  simp only [BitVec.toNat_ofFin]
  omega

theorem encodeXYN_toNat (hi : BitVec 4) (x y : Index) (n : BitVec 4) :
    (encodeXYN hi x y n).toNat = hi.toNat * 4096 + x.val * 256 + y.val * 16 + n.toNat := by
  have hx : (BitVec.ofFin (w := 4) x).toNat < 2 ^ 4 := BitVec.isLt _
  have hn := n.isLt
  have hyn : (BitVec.ofFin (w := 4) y ++ n).toNat < 2 ^ (4 + 4) := BitVec.isLt _
  rw [encodeXYN, BitVec.toNat_append, BitVec.toNat_append, ← Nat.shiftLeft_add_eq_or_of_lt hx,
    ← Nat.shiftLeft_add_eq_or_of_lt hyn, BitVec.toNat_append, ← Nat.shiftLeft_add_eq_or_of_lt hn,
    Nat.shiftLeft_eq, Nat.shiftLeft_eq, Nat.shiftLeft_eq]
  simp only [BitVec.toNat_ofFin]
  omega

theorem wordOfBytes_toNat (a b : Byte) : (wordOfBytes a b).toNat = a.toNat * 256 + b.toNat := by
  have := b.isLt
  rw [wordOfBytes, BitVec.toNat_append, ← Nat.shiftLeft_add_eq_or_of_lt this, Nat.shiftLeft_eq]

/-! ## Fields of encoded words -/

section
variable (hi n : BitVec 4) (nnn : BitVec 12) (x y : Index) (kk : Byte)

@[simp] theorem hiField_encodeNNN : hiField (encodeNNN hi nnn) = hi := by
  have := nnn.isLt
  exact BitVec.eq_of_toNat_eq (by rw [hiField_toNat, encodeNNN_toNat]; omega)

@[simp] theorem nnnField_encodeNNN : nnnField (encodeNNN hi nnn) = nnn := by
  have := nnn.isLt
  exact BitVec.eq_of_toNat_eq (by rw [nnnField_toNat, encodeNNN_toNat]; omega)

@[simp] theorem hiField_encodeXKK : hiField (encodeXKK hi x kk) = hi := by
  have := kk.isLt
  exact BitVec.eq_of_toNat_eq (by rw [hiField_toNat, encodeXKK_toNat]; omega)

@[simp] theorem xField_encodeXKK : xField (encodeXKK hi x kk) = x := by
  have := kk.isLt
  exact Fin.ext (by rw [xField_val, encodeXKK_toNat]; omega)

@[simp] theorem kkField_encodeXKK : kkField (encodeXKK hi x kk) = kk := by
  have := kk.isLt
  exact BitVec.eq_of_toNat_eq (by rw [kkField_toNat, encodeXKK_toNat]; omega)

@[simp] theorem hiField_encodeXYN : hiField (encodeXYN hi x y n) = hi := by
  have := n.isLt
  exact BitVec.eq_of_toNat_eq (by rw [hiField_toNat, encodeXYN_toNat]; omega)

@[simp] theorem xField_encodeXYN : xField (encodeXYN hi x y n) = x := by
  have := n.isLt
  exact Fin.ext (by rw [xField_val, encodeXYN_toNat]; omega)

@[simp] theorem yField_encodeXYN : yField (encodeXYN hi x y n) = y := by
  have := n.isLt
  exact Fin.ext (by rw [yField_val, encodeXYN_toNat]; omega)

@[simp] theorem nField_encodeXYN : nField (encodeXYN hi x y n) = n := by
  have := n.isLt
  exact BitVec.eq_of_toNat_eq (by rw [nField_toNat, encodeXYN_toNat]; omega)

end

/-! ## Every word is a word of each format -/

theorem encodeNNN_fields (op : Word) : encodeNNN (hiField op) (nnnField op) = op :=
  BitVec.eq_of_toNat_eq (by rw [encodeNNN_toNat, hiField_toNat, nnnField_toNat]; omega)

theorem encodeXKK_fields (op : Word) : encodeXKK (hiField op) (xField op) (kkField op) = op :=
  BitVec.eq_of_toNat_eq (by
    rw [encodeXKK_toNat, hiField_toNat, xField_val, kkField_toNat]; omega)

theorem encodeXYN_fields (op : Word) :
    encodeXYN (hiField op) (xField op) (yField op) (nField op) = op :=
  BitVec.eq_of_toNat_eq (by
    rw [encodeXYN_toNat, hiField_toNat, xField_val, yField_val, nField_toNat]; omega)

/-! ## The three masks of the opcode map keep fields -/

theorem getLsbD_encodeNNN (hi : BitVec 4) (nnn : BitVec 12) (i : Nat) :
    (encodeNNN hi nnn).getLsbD i = if i < 12 then nnn.getLsbD i else hi.getLsbD (i - 12) := by
  simpa [encodeNNN] using BitVec.getLsbD_append (x := hi) (y := nnn) (i := i)

theorem getLsbD_encodeXKK (hi : BitVec 4) (kk : Byte) (i : Nat) :
    (encodeXKK hi 0 kk).getLsbD i =
      if i < 8 then kk.getLsbD i else if i < 12 then false else hi.getLsbD (i - 12) := by
  have h1 := BitVec.getLsbD_append (x := hi ++ BitVec.ofFin (w := 4) 0) (y := kk) (i := i)
  have h2 := BitVec.getLsbD_append (x := hi) (y := BitVec.ofFin (w := 4) 0) (i := i - 8)
  rw [h2] at h1
  rw [encodeXKK, h1]
  have h3 : (BitVec.ofFin (w := 4) 0) = 0#4 := rfl
  have h4 : i - 8 - 4 = i - 12 := by omega
  rw [h3, h4]
  split_ifs <;> first | rfl | omega | simp

theorem encodeXYN_eq_encodeXKK (hi n : BitVec 4) (x y : Index) :
    encodeXYN hi x y n = encodeXKK hi x (BitVec.ofFin (w := 4) y ++ n) := rfl

theorem and_maskNNN (op : Word) : op &&& 0xF000#16 = encodeNNN (hiField op) 0 := by
  refine BitVec.eq_of_getLsbD_eq fun i hi => ?_
  rw [getLsbD_encodeNNN, BitVec.getLsbD_and]
  interval_cases i <;> simp [hiField]

theorem and_maskXB (op : Word) : op &&& 0xF0FF#16 = encodeXKK (hiField op) 0 (kkField op) := by
  refine BitVec.eq_of_getLsbD_eq fun i hi => ?_
  rw [getLsbD_encodeXKK, BitVec.getLsbD_and]
  interval_cases i <;> simp [hiField, kkField]

theorem and_maskXY (op : Word) : op &&& 0xF00F#16 = encodeXYN (hiField op) 0 0 (nField op) := by
  refine BitVec.eq_of_getLsbD_eq fun i hi => ?_
  have h3 : (BitVec.ofFin (w := 4) 0) = 0#4 := rfl
  rw [encodeXYN_eq_encodeXKK, getLsbD_encodeXKK, BitVec.getLsbD_and, h3]
  have h5 := BitVec.getLsbD_append (x := 0#4) (y := nField op) (i := i)
  rw [h5]
  interval_cases i <;> simp [hiField, nField]

end Sys2Proof
end

