-- ==== Sys2Proof/Laws/State.lean ====
section
/-! SUPPORT. One lemma per field per state update, each true by unfolding the update once, so that no
later proof unfolds a record update; and the register file's two read-after-write laws. -/

namespace Sys2Proof.Machine

variable (s : State)

/-! ## `setReg` -/

@[simp] theorem State.setReg_V (r : Index) (b : Byte) : (s.setReg r b).V = s.V.set r b := rfl
@[simp] theorem State.setReg_I (r : Index) (b : Byte) : (s.setReg r b).I = s.I := rfl
@[simp] theorem State.setReg_pc (r : Index) (b : Byte) : (s.setReg r b).pc = s.pc := rfl
@[simp] theorem State.setReg_sp (r : Index) (b : Byte) : (s.setReg r b).sp = s.sp := rfl
@[simp] theorem State.setReg_stack (r : Index) (b : Byte) : (s.setReg r b).stack = s.stack := rfl
@[simp] theorem State.setReg_DT (r : Index) (b : Byte) : (s.setReg r b).DT = s.DT := rfl
@[simp] theorem State.setReg_ST (r : Index) (b : Byte) : (s.setReg r b).ST = s.ST := rfl
@[simp] theorem State.setReg_keys (r : Index) (b : Byte) : (s.setReg r b).keys = s.keys := rfl
@[simp] theorem State.setReg_fb (r : Index) (b : Byte) : (s.setReg r b).fb = s.fb := rfl
@[simp] theorem State.setReg_fontOffset (r : Index) (b : Byte) : (s.setReg r b).fontOffset = s.fontOffset := rfl
@[simp] theorem State.setReg_mem (r : Index) (b : Byte) : (s.setReg r b).mem = s.mem := rfl
@[simp] theorem State.setReg_queue (r : Index) (b : Byte) : (s.setReg r b).queue = s.queue := rfl
@[simp] theorem State.setReg_wait (r : Index) (b : Byte) : (s.setReg r b).wait = s.wait := rfl
@[simp] theorem State.setReg_fault (r : Index) (b : Byte) : (s.setReg r b).fault = s.fault := rfl
@[simp] theorem State.setReg_notify (r : Index) (b : Byte) : (s.setReg r b).notify = s.notify := rfl
@[simp] theorem State.setReg_redrawPending (r : Index) (b : Byte) : (s.setReg r b).redrawPending = s.redrawPending := rfl
@[simp] theorem State.setReg_boot (r : Index) (b : Byte) : (s.setReg r b).boot = s.boot := rfl
@[simp] theorem State.setReg_draws (r : Index) (b : Byte) : (s.setReg r b).draws = s.draws := rfl
@[simp] theorem State.setReg_schedule (r : Index) (b : Byte) : (s.setReg r b).schedule = s.schedule := rfl

/-! ## `setI` -/

@[simp] theorem State.setI_V (w : Word) : (s.setI w).V = s.V := rfl
@[simp] theorem State.setI_I (w : Word) : (s.setI w).I = w := rfl
@[simp] theorem State.setI_pc (w : Word) : (s.setI w).pc = s.pc := rfl
@[simp] theorem State.setI_sp (w : Word) : (s.setI w).sp = s.sp := rfl
@[simp] theorem State.setI_stack (w : Word) : (s.setI w).stack = s.stack := rfl
@[simp] theorem State.setI_DT (w : Word) : (s.setI w).DT = s.DT := rfl
@[simp] theorem State.setI_ST (w : Word) : (s.setI w).ST = s.ST := rfl
@[simp] theorem State.setI_keys (w : Word) : (s.setI w).keys = s.keys := rfl
@[simp] theorem State.setI_fb (w : Word) : (s.setI w).fb = s.fb := rfl
@[simp] theorem State.setI_fontOffset (w : Word) : (s.setI w).fontOffset = s.fontOffset := rfl
@[simp] theorem State.setI_mem (w : Word) : (s.setI w).mem = s.mem := rfl
@[simp] theorem State.setI_queue (w : Word) : (s.setI w).queue = s.queue := rfl
@[simp] theorem State.setI_wait (w : Word) : (s.setI w).wait = s.wait := rfl
@[simp] theorem State.setI_fault (w : Word) : (s.setI w).fault = s.fault := rfl
@[simp] theorem State.setI_notify (w : Word) : (s.setI w).notify = s.notify := rfl
@[simp] theorem State.setI_redrawPending (w : Word) : (s.setI w).redrawPending = s.redrawPending := rfl
@[simp] theorem State.setI_boot (w : Word) : (s.setI w).boot = s.boot := rfl
@[simp] theorem State.setI_draws (w : Word) : (s.setI w).draws = s.draws := rfl
@[simp] theorem State.setI_schedule (w : Word) : (s.setI w).schedule = s.schedule := rfl

/-! ## `setPc` -/

@[simp] theorem State.setPc_V (w : Word) : (s.setPc w).V = s.V := rfl
@[simp] theorem State.setPc_I (w : Word) : (s.setPc w).I = s.I := rfl
@[simp] theorem State.setPc_pc (w : Word) : (s.setPc w).pc = w := rfl
@[simp] theorem State.setPc_sp (w : Word) : (s.setPc w).sp = s.sp := rfl
@[simp] theorem State.setPc_stack (w : Word) : (s.setPc w).stack = s.stack := rfl
@[simp] theorem State.setPc_DT (w : Word) : (s.setPc w).DT = s.DT := rfl
@[simp] theorem State.setPc_ST (w : Word) : (s.setPc w).ST = s.ST := rfl
@[simp] theorem State.setPc_keys (w : Word) : (s.setPc w).keys = s.keys := rfl
@[simp] theorem State.setPc_fb (w : Word) : (s.setPc w).fb = s.fb := rfl
@[simp] theorem State.setPc_fontOffset (w : Word) : (s.setPc w).fontOffset = s.fontOffset := rfl
@[simp] theorem State.setPc_mem (w : Word) : (s.setPc w).mem = s.mem := rfl
@[simp] theorem State.setPc_queue (w : Word) : (s.setPc w).queue = s.queue := rfl
@[simp] theorem State.setPc_wait (w : Word) : (s.setPc w).wait = s.wait := rfl
@[simp] theorem State.setPc_fault (w : Word) : (s.setPc w).fault = s.fault := rfl
@[simp] theorem State.setPc_notify (w : Word) : (s.setPc w).notify = s.notify := rfl
@[simp] theorem State.setPc_redrawPending (w : Word) : (s.setPc w).redrawPending = s.redrawPending := rfl
@[simp] theorem State.setPc_boot (w : Word) : (s.setPc w).boot = s.boot := rfl
@[simp] theorem State.setPc_draws (w : Word) : (s.setPc w).draws = s.draws := rfl
@[simp] theorem State.setPc_schedule (w : Word) : (s.setPc w).schedule = s.schedule := rfl

/-! ## `advance` -/

@[simp] theorem State.advance_V : s.advance.V = s.V := rfl
@[simp] theorem State.advance_I : s.advance.I = s.I := rfl
@[simp] theorem State.advance_pc : s.advance.pc = s.pc + 2 := rfl
@[simp] theorem State.advance_sp : s.advance.sp = s.sp := rfl
@[simp] theorem State.advance_stack : s.advance.stack = s.stack := rfl
@[simp] theorem State.advance_DT : s.advance.DT = s.DT := rfl
@[simp] theorem State.advance_ST : s.advance.ST = s.ST := rfl
@[simp] theorem State.advance_keys : s.advance.keys = s.keys := rfl
@[simp] theorem State.advance_fb : s.advance.fb = s.fb := rfl
@[simp] theorem State.advance_fontOffset : s.advance.fontOffset = s.fontOffset := rfl
@[simp] theorem State.advance_mem : s.advance.mem = s.mem := rfl
@[simp] theorem State.advance_queue : s.advance.queue = s.queue := rfl
@[simp] theorem State.advance_wait : s.advance.wait = s.wait := rfl
@[simp] theorem State.advance_fault : s.advance.fault = s.fault := rfl
@[simp] theorem State.advance_notify : s.advance.notify = s.notify := rfl
@[simp] theorem State.advance_redrawPending : s.advance.redrawPending = s.redrawPending := rfl
@[simp] theorem State.advance_boot : s.advance.boot = s.boot := rfl
@[simp] theorem State.advance_draws : s.advance.draws = s.draws := rfl
@[simp] theorem State.advance_schedule : s.advance.schedule = s.schedule := rfl

/-! ## `setDT` -/

@[simp] theorem State.setDT_V (b : Byte) : (s.setDT b).V = s.V := rfl
@[simp] theorem State.setDT_I (b : Byte) : (s.setDT b).I = s.I := rfl
@[simp] theorem State.setDT_pc (b : Byte) : (s.setDT b).pc = s.pc := rfl
@[simp] theorem State.setDT_sp (b : Byte) : (s.setDT b).sp = s.sp := rfl
@[simp] theorem State.setDT_stack (b : Byte) : (s.setDT b).stack = s.stack := rfl
@[simp] theorem State.setDT_DT (b : Byte) : (s.setDT b).DT = b := rfl
@[simp] theorem State.setDT_ST (b : Byte) : (s.setDT b).ST = s.ST := rfl
@[simp] theorem State.setDT_keys (b : Byte) : (s.setDT b).keys = s.keys := rfl
@[simp] theorem State.setDT_fb (b : Byte) : (s.setDT b).fb = s.fb := rfl
@[simp] theorem State.setDT_fontOffset (b : Byte) : (s.setDT b).fontOffset = s.fontOffset := rfl
@[simp] theorem State.setDT_mem (b : Byte) : (s.setDT b).mem = s.mem := rfl
@[simp] theorem State.setDT_queue (b : Byte) : (s.setDT b).queue = s.queue := rfl
@[simp] theorem State.setDT_wait (b : Byte) : (s.setDT b).wait = s.wait := rfl
@[simp] theorem State.setDT_fault (b : Byte) : (s.setDT b).fault = s.fault := rfl
@[simp] theorem State.setDT_notify (b : Byte) : (s.setDT b).notify = s.notify := rfl
@[simp] theorem State.setDT_redrawPending (b : Byte) : (s.setDT b).redrawPending = s.redrawPending := rfl
@[simp] theorem State.setDT_boot (b : Byte) : (s.setDT b).boot = s.boot := rfl
@[simp] theorem State.setDT_draws (b : Byte) : (s.setDT b).draws = s.draws := rfl
@[simp] theorem State.setDT_schedule (b : Byte) : (s.setDT b).schedule = s.schedule := rfl

/-! ## `setST` -/

@[simp] theorem State.setST_V (b : Byte) : (s.setST b).V = s.V := rfl
@[simp] theorem State.setST_I (b : Byte) : (s.setST b).I = s.I := rfl
@[simp] theorem State.setST_pc (b : Byte) : (s.setST b).pc = s.pc := rfl
@[simp] theorem State.setST_sp (b : Byte) : (s.setST b).sp = s.sp := rfl
@[simp] theorem State.setST_stack (b : Byte) : (s.setST b).stack = s.stack := rfl
@[simp] theorem State.setST_DT (b : Byte) : (s.setST b).DT = s.DT := rfl
@[simp] theorem State.setST_ST (b : Byte) : (s.setST b).ST = b := rfl
@[simp] theorem State.setST_keys (b : Byte) : (s.setST b).keys = s.keys := rfl
@[simp] theorem State.setST_fb (b : Byte) : (s.setST b).fb = s.fb := rfl
@[simp] theorem State.setST_fontOffset (b : Byte) : (s.setST b).fontOffset = s.fontOffset := rfl
@[simp] theorem State.setST_mem (b : Byte) : (s.setST b).mem = s.mem := rfl
@[simp] theorem State.setST_queue (b : Byte) : (s.setST b).queue = s.queue := rfl
@[simp] theorem State.setST_wait (b : Byte) : (s.setST b).wait = s.wait := rfl
@[simp] theorem State.setST_fault (b : Byte) : (s.setST b).fault = s.fault := rfl
@[simp] theorem State.setST_notify (b : Byte) : (s.setST b).notify = s.notify := rfl
@[simp] theorem State.setST_redrawPending (b : Byte) : (s.setST b).redrawPending = s.redrawPending := rfl
@[simp] theorem State.setST_boot (b : Byte) : (s.setST b).boot = s.boot := rfl
@[simp] theorem State.setST_draws (b : Byte) : (s.setST b).draws = s.draws := rfl
@[simp] theorem State.setST_schedule (b : Byte) : (s.setST b).schedule = s.schedule := rfl

/-! ## `countDraw` -/

@[simp] theorem State.countDraw_V : s.countDraw.V = s.V := rfl
@[simp] theorem State.countDraw_I : s.countDraw.I = s.I := rfl
@[simp] theorem State.countDraw_pc : s.countDraw.pc = s.pc := rfl
@[simp] theorem State.countDraw_sp : s.countDraw.sp = s.sp := rfl
@[simp] theorem State.countDraw_stack : s.countDraw.stack = s.stack := rfl
@[simp] theorem State.countDraw_DT : s.countDraw.DT = s.DT := rfl
@[simp] theorem State.countDraw_ST : s.countDraw.ST = s.ST := rfl
@[simp] theorem State.countDraw_keys : s.countDraw.keys = s.keys := rfl
@[simp] theorem State.countDraw_fb : s.countDraw.fb = s.fb := rfl
@[simp] theorem State.countDraw_fontOffset : s.countDraw.fontOffset = s.fontOffset := rfl
@[simp] theorem State.countDraw_mem : s.countDraw.mem = s.mem := rfl
@[simp] theorem State.countDraw_queue : s.countDraw.queue = s.queue := rfl
@[simp] theorem State.countDraw_wait : s.countDraw.wait = s.wait := rfl
@[simp] theorem State.countDraw_fault : s.countDraw.fault = s.fault := rfl
@[simp] theorem State.countDraw_notify : s.countDraw.notify = s.notify := rfl
@[simp] theorem State.countDraw_redrawPending : s.countDraw.redrawPending = s.redrawPending := rfl
@[simp] theorem State.countDraw_boot : s.countDraw.boot = s.boot := rfl
@[simp] theorem State.countDraw_draws : s.countDraw.draws = s.draws + 1 := rfl
@[simp] theorem State.countDraw_schedule : s.countDraw.schedule = s.schedule := rfl

/-! ## `push` -/

@[simp] theorem State.push_V (j : Index) (w : Word) : (s.push j w).V = s.V := rfl
@[simp] theorem State.push_I (j : Index) (w : Word) : (s.push j w).I = s.I := rfl
@[simp] theorem State.push_pc (j : Index) (w : Word) : (s.push j w).pc = s.pc := rfl
@[simp] theorem State.push_sp (j : Index) (w : Word) : (s.push j w).sp = s.sp + 1 := rfl
@[simp] theorem State.push_stack (j : Index) (w : Word) : (s.push j w).stack = s.stack.set j w := rfl
@[simp] theorem State.push_DT (j : Index) (w : Word) : (s.push j w).DT = s.DT := rfl
@[simp] theorem State.push_ST (j : Index) (w : Word) : (s.push j w).ST = s.ST := rfl
@[simp] theorem State.push_keys (j : Index) (w : Word) : (s.push j w).keys = s.keys := rfl
@[simp] theorem State.push_fb (j : Index) (w : Word) : (s.push j w).fb = s.fb := rfl
@[simp] theorem State.push_fontOffset (j : Index) (w : Word) : (s.push j w).fontOffset = s.fontOffset := rfl
@[simp] theorem State.push_mem (j : Index) (w : Word) : (s.push j w).mem = s.mem := rfl
@[simp] theorem State.push_queue (j : Index) (w : Word) : (s.push j w).queue = s.queue := rfl
@[simp] theorem State.push_wait (j : Index) (w : Word) : (s.push j w).wait = s.wait := rfl
@[simp] theorem State.push_fault (j : Index) (w : Word) : (s.push j w).fault = s.fault := rfl
@[simp] theorem State.push_notify (j : Index) (w : Word) : (s.push j w).notify = s.notify := rfl
@[simp] theorem State.push_redrawPending (j : Index) (w : Word) : (s.push j w).redrawPending = s.redrawPending := rfl
@[simp] theorem State.push_boot (j : Index) (w : Word) : (s.push j w).boot = s.boot := rfl
@[simp] theorem State.push_draws (j : Index) (w : Word) : (s.push j w).draws = s.draws := rfl
@[simp] theorem State.push_schedule (j : Index) (w : Word) : (s.push j w).schedule = s.schedule := rfl

/-! ## `pop` -/

@[simp] theorem State.pop_V (j : Index) : (s.pop j).V = s.V := rfl
@[simp] theorem State.pop_I (j : Index) : (s.pop j).I = s.I := rfl
@[simp] theorem State.pop_pc (j : Index) : (s.pop j).pc = s.stack[j] := rfl
@[simp] theorem State.pop_sp (j : Index) : (s.pop j).sp = s.sp - 1 := rfl
@[simp] theorem State.pop_stack (j : Index) : (s.pop j).stack = s.stack := rfl
@[simp] theorem State.pop_DT (j : Index) : (s.pop j).DT = s.DT := rfl
@[simp] theorem State.pop_ST (j : Index) : (s.pop j).ST = s.ST := rfl
@[simp] theorem State.pop_keys (j : Index) : (s.pop j).keys = s.keys := rfl
@[simp] theorem State.pop_fb (j : Index) : (s.pop j).fb = s.fb := rfl
@[simp] theorem State.pop_fontOffset (j : Index) : (s.pop j).fontOffset = s.fontOffset := rfl
@[simp] theorem State.pop_mem (j : Index) : (s.pop j).mem = s.mem := rfl
@[simp] theorem State.pop_queue (j : Index) : (s.pop j).queue = s.queue := rfl
@[simp] theorem State.pop_wait (j : Index) : (s.pop j).wait = s.wait := rfl
@[simp] theorem State.pop_fault (j : Index) : (s.pop j).fault = s.fault := rfl
@[simp] theorem State.pop_notify (j : Index) : (s.pop j).notify = s.notify := rfl
@[simp] theorem State.pop_redrawPending (j : Index) : (s.pop j).redrawPending = s.redrawPending := rfl
@[simp] theorem State.pop_boot (j : Index) : (s.pop j).boot = s.boot := rfl
@[simp] theorem State.pop_draws (j : Index) : (s.pop j).draws = s.draws := rfl
@[simp] theorem State.pop_schedule (j : Index) : (s.pop j).schedule = s.schedule := rfl

/-! ## `setFb` -/

@[simp] theorem State.setFb_V (f : Framebuffer) : (s.setFb f).V = s.V := rfl
@[simp] theorem State.setFb_I (f : Framebuffer) : (s.setFb f).I = s.I := rfl
@[simp] theorem State.setFb_pc (f : Framebuffer) : (s.setFb f).pc = s.pc := rfl
@[simp] theorem State.setFb_sp (f : Framebuffer) : (s.setFb f).sp = s.sp := rfl
@[simp] theorem State.setFb_stack (f : Framebuffer) : (s.setFb f).stack = s.stack := rfl
@[simp] theorem State.setFb_DT (f : Framebuffer) : (s.setFb f).DT = s.DT := rfl
@[simp] theorem State.setFb_ST (f : Framebuffer) : (s.setFb f).ST = s.ST := rfl
@[simp] theorem State.setFb_keys (f : Framebuffer) : (s.setFb f).keys = s.keys := rfl
@[simp] theorem State.setFb_fb (f : Framebuffer) : (s.setFb f).fb = f := rfl
@[simp] theorem State.setFb_fontOffset (f : Framebuffer) : (s.setFb f).fontOffset = s.fontOffset := rfl
@[simp] theorem State.setFb_mem (f : Framebuffer) : (s.setFb f).mem = s.mem := rfl
@[simp] theorem State.setFb_queue (f : Framebuffer) : (s.setFb f).queue = s.queue := rfl
@[simp] theorem State.setFb_wait (f : Framebuffer) : (s.setFb f).wait = s.wait := rfl
@[simp] theorem State.setFb_fault (f : Framebuffer) : (s.setFb f).fault = s.fault := rfl
@[simp] theorem State.setFb_notify (f : Framebuffer) : (s.setFb f).notify = s.notify := rfl
@[simp] theorem State.setFb_redrawPending (f : Framebuffer) : (s.setFb f).redrawPending = s.redrawPending := rfl
@[simp] theorem State.setFb_boot (f : Framebuffer) : (s.setFb f).boot = s.boot := rfl
@[simp] theorem State.setFb_draws (f : Framebuffer) : (s.setFb f).draws = s.draws := rfl
@[simp] theorem State.setFb_schedule (f : Framebuffer) : (s.setFb f).schedule = s.schedule := rfl

/-! ## `emitNotify` -/

@[simp] theorem State.emitNotify_V : s.emitNotify.V = s.V := rfl
@[simp] theorem State.emitNotify_I : s.emitNotify.I = s.I := rfl
@[simp] theorem State.emitNotify_pc : s.emitNotify.pc = s.pc := rfl
@[simp] theorem State.emitNotify_sp : s.emitNotify.sp = s.sp := rfl
@[simp] theorem State.emitNotify_stack : s.emitNotify.stack = s.stack := rfl
@[simp] theorem State.emitNotify_DT : s.emitNotify.DT = s.DT := rfl
@[simp] theorem State.emitNotify_ST : s.emitNotify.ST = s.ST := rfl
@[simp] theorem State.emitNotify_keys : s.emitNotify.keys = s.keys := rfl
@[simp] theorem State.emitNotify_fb : s.emitNotify.fb = s.fb := rfl
@[simp] theorem State.emitNotify_fontOffset : s.emitNotify.fontOffset = s.fontOffset := rfl
@[simp] theorem State.emitNotify_mem : s.emitNotify.mem = s.mem := rfl
@[simp] theorem State.emitNotify_queue : s.emitNotify.queue = s.queue := rfl
@[simp] theorem State.emitNotify_wait : s.emitNotify.wait = s.wait := rfl
@[simp] theorem State.emitNotify_fault : s.emitNotify.fault = s.fault := rfl
@[simp] theorem State.emitNotify_notify : s.emitNotify.notify = true := rfl
@[simp] theorem State.emitNotify_redrawPending : s.emitNotify.redrawPending = true := rfl
@[simp] theorem State.emitNotify_boot : s.emitNotify.boot = s.boot := rfl
@[simp] theorem State.emitNotify_draws : s.emitNotify.draws = s.draws := rfl
@[simp] theorem State.emitNotify_schedule : s.emitNotify.schedule = s.schedule := rfl

/-! ## `applyKey` -/

@[simp] theorem State.applyKey_V (e : KeyEvent) : (s.applyKey e).V = s.V := rfl
@[simp] theorem State.applyKey_I (e : KeyEvent) : (s.applyKey e).I = s.I := rfl
@[simp] theorem State.applyKey_pc (e : KeyEvent) : (s.applyKey e).pc = s.pc := rfl
@[simp] theorem State.applyKey_sp (e : KeyEvent) : (s.applyKey e).sp = s.sp := rfl
@[simp] theorem State.applyKey_stack (e : KeyEvent) : (s.applyKey e).stack = s.stack := rfl
@[simp] theorem State.applyKey_DT (e : KeyEvent) : (s.applyKey e).DT = s.DT := rfl
@[simp] theorem State.applyKey_ST (e : KeyEvent) : (s.applyKey e).ST = s.ST := rfl
@[simp] theorem State.applyKey_keys (e : KeyEvent) : (s.applyKey e).keys = s.keys.set e.code e.pressed := rfl
@[simp] theorem State.applyKey_fb (e : KeyEvent) : (s.applyKey e).fb = s.fb := rfl
@[simp] theorem State.applyKey_fontOffset (e : KeyEvent) : (s.applyKey e).fontOffset = s.fontOffset := rfl
@[simp] theorem State.applyKey_mem (e : KeyEvent) : (s.applyKey e).mem = s.mem := rfl
@[simp] theorem State.applyKey_queue (e : KeyEvent) : (s.applyKey e).queue = s.queue := rfl
@[simp] theorem State.applyKey_wait (e : KeyEvent) : (s.applyKey e).wait = s.wait := rfl
@[simp] theorem State.applyKey_fault (e : KeyEvent) : (s.applyKey e).fault = s.fault := rfl
@[simp] theorem State.applyKey_notify (e : KeyEvent) : (s.applyKey e).notify = s.notify := rfl
@[simp] theorem State.applyKey_redrawPending (e : KeyEvent) : (s.applyKey e).redrawPending = s.redrawPending := rfl
@[simp] theorem State.applyKey_boot (e : KeyEvent) : (s.applyKey e).boot = s.boot := rfl
@[simp] theorem State.applyKey_draws (e : KeyEvent) : (s.applyKey e).draws = s.draws := rfl
@[simp] theorem State.applyKey_schedule (e : KeyEvent) : (s.applyKey e).schedule = s.schedule := rfl

/-! ## `setQueue` -/

@[simp] theorem State.setQueue_V (q : List KeyEvent) : (s.setQueue q).V = s.V := rfl
@[simp] theorem State.setQueue_I (q : List KeyEvent) : (s.setQueue q).I = s.I := rfl
@[simp] theorem State.setQueue_pc (q : List KeyEvent) : (s.setQueue q).pc = s.pc := rfl
@[simp] theorem State.setQueue_sp (q : List KeyEvent) : (s.setQueue q).sp = s.sp := rfl
@[simp] theorem State.setQueue_stack (q : List KeyEvent) : (s.setQueue q).stack = s.stack := rfl
@[simp] theorem State.setQueue_DT (q : List KeyEvent) : (s.setQueue q).DT = s.DT := rfl
@[simp] theorem State.setQueue_ST (q : List KeyEvent) : (s.setQueue q).ST = s.ST := rfl
@[simp] theorem State.setQueue_keys (q : List KeyEvent) : (s.setQueue q).keys = s.keys := rfl
@[simp] theorem State.setQueue_fb (q : List KeyEvent) : (s.setQueue q).fb = s.fb := rfl
@[simp] theorem State.setQueue_fontOffset (q : List KeyEvent) : (s.setQueue q).fontOffset = s.fontOffset := rfl
@[simp] theorem State.setQueue_mem (q : List KeyEvent) : (s.setQueue q).mem = s.mem := rfl
@[simp] theorem State.setQueue_queue (q : List KeyEvent) : (s.setQueue q).queue = q := rfl
@[simp] theorem State.setQueue_wait (q : List KeyEvent) : (s.setQueue q).wait = s.wait := rfl
@[simp] theorem State.setQueue_fault (q : List KeyEvent) : (s.setQueue q).fault = s.fault := rfl
@[simp] theorem State.setQueue_notify (q : List KeyEvent) : (s.setQueue q).notify = s.notify := rfl
@[simp] theorem State.setQueue_redrawPending (q : List KeyEvent) : (s.setQueue q).redrawPending = s.redrawPending := rfl
@[simp] theorem State.setQueue_boot (q : List KeyEvent) : (s.setQueue q).boot = s.boot := rfl
@[simp] theorem State.setQueue_draws (q : List KeyEvent) : (s.setQueue q).draws = s.draws := rfl
@[simp] theorem State.setQueue_schedule (q : List KeyEvent) : (s.setQueue q).schedule = s.schedule := rfl

/-! ## `setWait` -/

@[simp] theorem State.setWait_V (w : Option Index) : (s.setWait w).V = s.V := rfl
@[simp] theorem State.setWait_I (w : Option Index) : (s.setWait w).I = s.I := rfl
@[simp] theorem State.setWait_pc (w : Option Index) : (s.setWait w).pc = s.pc := rfl
@[simp] theorem State.setWait_sp (w : Option Index) : (s.setWait w).sp = s.sp := rfl
@[simp] theorem State.setWait_stack (w : Option Index) : (s.setWait w).stack = s.stack := rfl
@[simp] theorem State.setWait_DT (w : Option Index) : (s.setWait w).DT = s.DT := rfl
@[simp] theorem State.setWait_ST (w : Option Index) : (s.setWait w).ST = s.ST := rfl
@[simp] theorem State.setWait_keys (w : Option Index) : (s.setWait w).keys = s.keys := rfl
@[simp] theorem State.setWait_fb (w : Option Index) : (s.setWait w).fb = s.fb := rfl
@[simp] theorem State.setWait_fontOffset (w : Option Index) : (s.setWait w).fontOffset = s.fontOffset := rfl
@[simp] theorem State.setWait_mem (w : Option Index) : (s.setWait w).mem = s.mem := rfl
@[simp] theorem State.setWait_queue (w : Option Index) : (s.setWait w).queue = s.queue := rfl
@[simp] theorem State.setWait_wait (w : Option Index) : (s.setWait w).wait = w := rfl
@[simp] theorem State.setWait_fault (w : Option Index) : (s.setWait w).fault = s.fault := rfl
@[simp] theorem State.setWait_notify (w : Option Index) : (s.setWait w).notify = s.notify := rfl
@[simp] theorem State.setWait_redrawPending (w : Option Index) : (s.setWait w).redrawPending = s.redrawPending := rfl
@[simp] theorem State.setWait_boot (w : Option Index) : (s.setWait w).boot = s.boot := rfl
@[simp] theorem State.setWait_draws (w : Option Index) : (s.setWait w).draws = s.draws := rfl
@[simp] theorem State.setWait_schedule (w : Option Index) : (s.setWait w).schedule = s.schedule := rfl

/-! ## `setFault` -/

@[simp] theorem State.setFault_V (k : FaultCause) (n : Nat) : (s.setFault k n).V = s.V := rfl
@[simp] theorem State.setFault_I (k : FaultCause) (n : Nat) : (s.setFault k n).I = s.I := rfl
@[simp] theorem State.setFault_pc (k : FaultCause) (n : Nat) : (s.setFault k n).pc = s.pc := rfl
@[simp] theorem State.setFault_sp (k : FaultCause) (n : Nat) : (s.setFault k n).sp = s.sp := rfl
@[simp] theorem State.setFault_stack (k : FaultCause) (n : Nat) : (s.setFault k n).stack = s.stack := rfl
@[simp] theorem State.setFault_DT (k : FaultCause) (n : Nat) : (s.setFault k n).DT = s.DT := rfl
@[simp] theorem State.setFault_ST (k : FaultCause) (n : Nat) : (s.setFault k n).ST = s.ST := rfl
@[simp] theorem State.setFault_keys (k : FaultCause) (n : Nat) : (s.setFault k n).keys = s.keys := rfl
@[simp] theorem State.setFault_fb (k : FaultCause) (n : Nat) : (s.setFault k n).fb = s.fb := rfl
@[simp] theorem State.setFault_fontOffset (k : FaultCause) (n : Nat) : (s.setFault k n).fontOffset = s.fontOffset := rfl
@[simp] theorem State.setFault_mem (k : FaultCause) (n : Nat) : (s.setFault k n).mem = s.mem := rfl
@[simp] theorem State.setFault_queue (k : FaultCause) (n : Nat) : (s.setFault k n).queue = s.queue := rfl
@[simp] theorem State.setFault_wait (k : FaultCause) (n : Nat) : (s.setFault k n).wait = s.wait := rfl
@[simp] theorem State.setFault_fault (k : FaultCause) (n : Nat) : (s.setFault k n).fault = some ⟨k, n⟩ := rfl
@[simp] theorem State.setFault_notify (k : FaultCause) (n : Nat) : (s.setFault k n).notify = s.notify := rfl
@[simp] theorem State.setFault_redrawPending (k : FaultCause) (n : Nat) : (s.setFault k n).redrawPending = s.redrawPending := rfl
@[simp] theorem State.setFault_boot (k : FaultCause) (n : Nat) : (s.setFault k n).boot = s.boot := rfl
@[simp] theorem State.setFault_draws (k : FaultCause) (n : Nat) : (s.setFault k n).draws = s.draws := rfl
@[simp] theorem State.setFault_schedule (k : FaultCause) (n : Nat) : (s.setFault k n).schedule = s.schedule := rfl

/-! ## `storeBytes` -/

@[simp] theorem State.storeBytes_V (a : Nat) (bs : List Byte) : (s.storeBytes a bs).V = s.V := rfl
@[simp] theorem State.storeBytes_I (a : Nat) (bs : List Byte) : (s.storeBytes a bs).I = s.I := rfl
@[simp] theorem State.storeBytes_pc (a : Nat) (bs : List Byte) : (s.storeBytes a bs).pc = s.pc := rfl
@[simp] theorem State.storeBytes_sp (a : Nat) (bs : List Byte) : (s.storeBytes a bs).sp = s.sp := rfl
@[simp] theorem State.storeBytes_stack (a : Nat) (bs : List Byte) : (s.storeBytes a bs).stack = s.stack := rfl
@[simp] theorem State.storeBytes_DT (a : Nat) (bs : List Byte) : (s.storeBytes a bs).DT = s.DT := rfl
@[simp] theorem State.storeBytes_ST (a : Nat) (bs : List Byte) : (s.storeBytes a bs).ST = s.ST := rfl
@[simp] theorem State.storeBytes_keys (a : Nat) (bs : List Byte) : (s.storeBytes a bs).keys = s.keys := rfl
@[simp] theorem State.storeBytes_fb (a : Nat) (bs : List Byte) : (s.storeBytes a bs).fb = s.fb := rfl
@[simp] theorem State.storeBytes_fontOffset (a : Nat) (bs : List Byte) : (s.storeBytes a bs).fontOffset = s.fontOffset := rfl
@[simp] theorem State.storeBytes_mem (a : Nat) (bs : List Byte) : (s.storeBytes a bs).mem = Memory.writeAll s.mem a bs := rfl
@[simp] theorem State.storeBytes_queue (a : Nat) (bs : List Byte) : (s.storeBytes a bs).queue = s.queue := rfl
@[simp] theorem State.storeBytes_wait (a : Nat) (bs : List Byte) : (s.storeBytes a bs).wait = s.wait := rfl
@[simp] theorem State.storeBytes_fault (a : Nat) (bs : List Byte) : (s.storeBytes a bs).fault = s.fault := rfl
@[simp] theorem State.storeBytes_notify (a : Nat) (bs : List Byte) : (s.storeBytes a bs).notify = s.notify := rfl
@[simp] theorem State.storeBytes_redrawPending (a : Nat) (bs : List Byte) : (s.storeBytes a bs).redrawPending = s.redrawPending := rfl
@[simp] theorem State.storeBytes_boot (a : Nat) (bs : List Byte) : (s.storeBytes a bs).boot = s.boot := rfl
@[simp] theorem State.storeBytes_draws (a : Nat) (bs : List Byte) : (s.storeBytes a bs).draws = s.draws := rfl
@[simp] theorem State.storeBytes_schedule (a : Nat) (bs : List Byte) : (s.storeBytes a bs).schedule = s.schedule := rfl

/-! ## `loadBlock` -/

@[simp] theorem State.loadBlock_I (x : Index) : (s.loadBlock x).I = s.I := rfl
@[simp] theorem State.loadBlock_pc (x : Index) : (s.loadBlock x).pc = s.pc := rfl
@[simp] theorem State.loadBlock_sp (x : Index) : (s.loadBlock x).sp = s.sp := rfl
@[simp] theorem State.loadBlock_stack (x : Index) : (s.loadBlock x).stack = s.stack := rfl
@[simp] theorem State.loadBlock_DT (x : Index) : (s.loadBlock x).DT = s.DT := rfl
@[simp] theorem State.loadBlock_ST (x : Index) : (s.loadBlock x).ST = s.ST := rfl
@[simp] theorem State.loadBlock_keys (x : Index) : (s.loadBlock x).keys = s.keys := rfl
@[simp] theorem State.loadBlock_fb (x : Index) : (s.loadBlock x).fb = s.fb := rfl
@[simp] theorem State.loadBlock_fontOffset (x : Index) : (s.loadBlock x).fontOffset = s.fontOffset := rfl
@[simp] theorem State.loadBlock_mem (x : Index) : (s.loadBlock x).mem = s.mem := rfl
@[simp] theorem State.loadBlock_queue (x : Index) : (s.loadBlock x).queue = s.queue := rfl
@[simp] theorem State.loadBlock_wait (x : Index) : (s.loadBlock x).wait = s.wait := rfl
@[simp] theorem State.loadBlock_fault (x : Index) : (s.loadBlock x).fault = s.fault := rfl
@[simp] theorem State.loadBlock_notify (x : Index) : (s.loadBlock x).notify = s.notify := rfl
@[simp] theorem State.loadBlock_redrawPending (x : Index) : (s.loadBlock x).redrawPending = s.redrawPending := rfl
@[simp] theorem State.loadBlock_boot (x : Index) : (s.loadBlock x).boot = s.boot := rfl
@[simp] theorem State.loadBlock_draws (x : Index) : (s.loadBlock x).draws = s.draws := rfl
@[simp] theorem State.loadBlock_schedule (x : Index) : (s.loadBlock x).schedule = s.schedule := rfl

/-! ## `beginStep` -/

@[simp] theorem State.beginStep_V : s.beginStep.V = s.V := rfl
@[simp] theorem State.beginStep_I : s.beginStep.I = s.I := rfl
@[simp] theorem State.beginStep_pc : s.beginStep.pc = s.pc := rfl
@[simp] theorem State.beginStep_sp : s.beginStep.sp = s.sp := rfl
@[simp] theorem State.beginStep_stack : s.beginStep.stack = s.stack := rfl
@[simp] theorem State.beginStep_DT : s.beginStep.DT = s.DT := rfl
@[simp] theorem State.beginStep_ST : s.beginStep.ST = s.ST := rfl
@[simp] theorem State.beginStep_keys : s.beginStep.keys = s.keys := rfl
@[simp] theorem State.beginStep_fb : s.beginStep.fb = s.fb := rfl
@[simp] theorem State.beginStep_fontOffset : s.beginStep.fontOffset = s.fontOffset := rfl
@[simp] theorem State.beginStep_mem : s.beginStep.mem = s.mem := rfl
@[simp] theorem State.beginStep_queue : s.beginStep.queue = s.queue := rfl
@[simp] theorem State.beginStep_wait : s.beginStep.wait = s.wait := rfl
@[simp] theorem State.beginStep_fault : s.beginStep.fault = s.fault := rfl
@[simp] theorem State.beginStep_notify : s.beginStep.notify = false := rfl
@[simp] theorem State.beginStep_redrawPending : s.beginStep.redrawPending = s.redrawPending := rfl
@[simp] theorem State.beginStep_boot : s.beginStep.boot = .running := rfl
@[simp] theorem State.beginStep_draws : s.beginStep.draws = s.draws := rfl
@[simp] theorem State.beginStep_schedule : s.beginStep.schedule = s.schedule := rfl

/-! ## `takeNext` -/

@[simp] theorem State.takeNext_V : s.takeNext.V = s.V := rfl
@[simp] theorem State.takeNext_I : s.takeNext.I = s.I := rfl
@[simp] theorem State.takeNext_pc : s.takeNext.pc = s.pc := rfl
@[simp] theorem State.takeNext_sp : s.takeNext.sp = s.sp := rfl
@[simp] theorem State.takeNext_stack : s.takeNext.stack = s.stack := rfl
@[simp] theorem State.takeNext_DT : s.takeNext.DT = s.DT := rfl
@[simp] theorem State.takeNext_ST : s.takeNext.ST = s.ST := rfl
@[simp] theorem State.takeNext_keys : s.takeNext.keys = s.keys := rfl
@[simp] theorem State.takeNext_fb : s.takeNext.fb = s.fb := rfl
@[simp] theorem State.takeNext_fontOffset : s.takeNext.fontOffset = s.fontOffset := rfl
@[simp] theorem State.takeNext_mem : s.takeNext.mem = s.mem := rfl
@[simp] theorem State.takeNext_queue : s.takeNext.queue = s.queue := rfl
@[simp] theorem State.takeNext_wait : s.takeNext.wait = s.wait := rfl
@[simp] theorem State.takeNext_fault : s.takeNext.fault = s.fault := rfl
@[simp] theorem State.takeNext_notify : s.takeNext.notify = s.notify := rfl
@[simp] theorem State.takeNext_redrawPending : s.takeNext.redrawPending = s.redrawPending := rfl
@[simp] theorem State.takeNext_boot : s.takeNext.boot = s.boot := rfl
@[simp] theorem State.takeNext_draws : s.takeNext.draws = s.draws := rfl
@[simp] theorem State.takeNext_schedule : s.takeNext.schedule = s.schedule.tail := rfl

/-! ## Reading a register after an update -/

@[simp] theorem State.reg_setReg_self (r : Index) (b : Byte) : (s.setReg r b).reg r = b := by
  simp [State.reg]

@[simp] theorem State.reg_setReg_ne {r q : Index} (b : Byte) (h : q ≠ r) :
    (s.setReg r b).reg q = s.reg q := by
  have : r.val ≠ q.val := fun e => h (Fin.ext e.symm)
  simp [State.reg, Vector.getElem_set_ne, this]

theorem State.reg_setReg (r q : Index) (b : Byte) :
    (s.setReg r b).reg q = if q = r then b else s.reg q := by
  split
  · next h => subst h; simp
  · next h => simp [h]

theorem State.reg_loadBlock (x k : Index) :
    (s.loadBlock x).reg k = if k ≤ x then s.byteAt (s.I.toNat + k.val) else s.reg k := by
  simp [State.reg, State.loadBlock]

@[simp] theorem State.setReg_byteAt (r : Index) (b : Byte) (addr : Nat) : (s.setReg r b).byteAt addr = s.byteAt addr := rfl
@[simp] theorem State.setI_reg (w : Word) (idx : Index) : (s.setI w).reg idx = s.reg idx := rfl
@[simp] theorem State.setI_byteAt (w : Word) (addr : Nat) : (s.setI w).byteAt addr = s.byteAt addr := rfl
@[simp] theorem State.setPc_reg (w : Word) (idx : Index) : (s.setPc w).reg idx = s.reg idx := rfl
@[simp] theorem State.setPc_byteAt (w : Word) (addr : Nat) : (s.setPc w).byteAt addr = s.byteAt addr := rfl
@[simp] theorem State.advance_reg (idx : Index) : s.advance.reg idx = s.reg idx := rfl
@[simp] theorem State.advance_byteAt (addr : Nat) : s.advance.byteAt addr = s.byteAt addr := rfl
@[simp] theorem State.setDT_reg (b : Byte) (idx : Index) : (s.setDT b).reg idx = s.reg idx := rfl
@[simp] theorem State.setDT_byteAt (b : Byte) (addr : Nat) : (s.setDT b).byteAt addr = s.byteAt addr := rfl
@[simp] theorem State.setST_reg (b : Byte) (idx : Index) : (s.setST b).reg idx = s.reg idx := rfl
@[simp] theorem State.setST_byteAt (b : Byte) (addr : Nat) : (s.setST b).byteAt addr = s.byteAt addr := rfl
@[simp] theorem State.countDraw_reg (idx : Index) : s.countDraw.reg idx = s.reg idx := rfl
@[simp] theorem State.countDraw_byteAt (addr : Nat) : s.countDraw.byteAt addr = s.byteAt addr := rfl
@[simp] theorem State.push_reg (j : Index) (w : Word) (idx : Index) : (s.push j w).reg idx = s.reg idx := rfl
@[simp] theorem State.push_byteAt (j : Index) (w : Word) (addr : Nat) : (s.push j w).byteAt addr = s.byteAt addr := rfl
@[simp] theorem State.pop_reg (j : Index) (idx : Index) : (s.pop j).reg idx = s.reg idx := rfl
@[simp] theorem State.pop_byteAt (j : Index) (addr : Nat) : (s.pop j).byteAt addr = s.byteAt addr := rfl
@[simp] theorem State.setFb_reg (f : Framebuffer) (idx : Index) : (s.setFb f).reg idx = s.reg idx := rfl
@[simp] theorem State.setFb_byteAt (f : Framebuffer) (addr : Nat) : (s.setFb f).byteAt addr = s.byteAt addr := rfl
@[simp] theorem State.emitNotify_reg (idx : Index) : s.emitNotify.reg idx = s.reg idx := rfl
@[simp] theorem State.emitNotify_byteAt (addr : Nat) : s.emitNotify.byteAt addr = s.byteAt addr := rfl
@[simp] theorem State.applyKey_reg (e : KeyEvent) (idx : Index) : (s.applyKey e).reg idx = s.reg idx := rfl
@[simp] theorem State.applyKey_byteAt (e : KeyEvent) (addr : Nat) : (s.applyKey e).byteAt addr = s.byteAt addr := rfl
@[simp] theorem State.setQueue_reg (q : List KeyEvent) (idx : Index) : (s.setQueue q).reg idx = s.reg idx := rfl
@[simp] theorem State.setQueue_byteAt (q : List KeyEvent) (addr : Nat) : (s.setQueue q).byteAt addr = s.byteAt addr := rfl
@[simp] theorem State.setWait_reg (w : Option Index) (idx : Index) : (s.setWait w).reg idx = s.reg idx := rfl
@[simp] theorem State.setWait_byteAt (w : Option Index) (addr : Nat) : (s.setWait w).byteAt addr = s.byteAt addr := rfl
@[simp] theorem State.setFault_reg (k : FaultCause) (n : Nat) (idx : Index) : (s.setFault k n).reg idx = s.reg idx := rfl
@[simp] theorem State.setFault_byteAt (k : FaultCause) (n : Nat) (addr : Nat) : (s.setFault k n).byteAt addr = s.byteAt addr := rfl
@[simp] theorem State.storeBytes_reg (a : Nat) (bs : List Byte) (idx : Index) : (s.storeBytes a bs).reg idx = s.reg idx := rfl
@[simp] theorem State.loadBlock_byteAt (x : Index) (addr : Nat) : (s.loadBlock x).byteAt addr = s.byteAt addr := rfl
@[simp] theorem State.takeNext_reg (idx : Index) : s.takeNext.reg idx = s.reg idx := rfl
@[simp] theorem State.takeNext_byteAt (addr : Nat) : s.takeNext.byteAt addr = s.byteAt addr := rfl
@[simp] theorem State.beginStep_reg (idx : Index) : s.beginStep.reg idx = s.reg idx := rfl
@[simp] theorem State.beginStep_byteAt (addr : Nat) : s.beginStep.byteAt addr = s.byteAt addr := rfl

/-! ## Updates under a condition -/

theorem State.skipIf_eq (c : Bool) :
    s.skipIf c = s.setPc (if c then s.pc + 2 else s.pc) := by
  cases c <;> rfl

theorem State.notifyIf_eq (c : Bool) :
    s.notifyIf c =
      { s with notify := s.notify || c, redrawPending := s.redrawPending || c } := by
  cases c <;> simp [State.notifyIf, State.emitNotify]

end Sys2Proof.Machine
end

