-- ==== Sys2Proof/Laws/Memory.lean ====
section
/-! SUPPORT. The laws of memory: a write is read back, leaves every other address alone, keeps the
canonical form, and does nothing above 4095; the same for a block of bytes. -/

namespace Sys2Proof.Machine

/-! ## Reading after `insert` and `erase` -/

theorem Memory.read_insert (m : List Host.Cell) (a k : Nat) (b : Byte) :
    Memory.read (Memory.insert a b m) k = if k = a then b else Memory.read m k := by
  induction m with
  | nil => simp [Memory.insert, Memory.read, eq_comm]
  | cons c m ih =>
    obtain ⟨j, d⟩ := c
    unfold Memory.insert
    split
    · simp [Memory.read, eq_comm]
    · split
      · next h =>
        subst h
        by_cases hk : k = a
        · simp [Memory.read, hk]
        · have : a ≠ k := fun e => hk e.symm
          simp [Memory.read, hk, this]
      · next h =>
        by_cases hj : j = k
        · have : k ≠ a := fun e => h (by omega)
          simp [Memory.read, hj, this]
        · simp [Memory.read, hj, ih]

theorem Memory.read_erase (m : List Host.Cell) (a k : Nat) :
    Memory.read (Memory.erase a m) k = if k = a then Memory.unlisted a else Memory.read m k := by
  induction m with
  | nil => by_cases h : k = a <;> simp [Memory.erase, Memory.read, h]
  | cons c m ih =>
    obtain ⟨j, d⟩ := c
    unfold Memory.erase
    by_cases hj : j = a
    · rw [if_pos hj, ih]
      by_cases hk : k = a
      · simp [hk]
      · have : j ≠ k := by omega
        simp [Memory.read, hk, this]
    · rw [if_neg hj]
      by_cases hk : j = k
      · have : k ≠ a := by omega
        simp [Memory.read, hk, this]
      · simp [Memory.read, hk, ih]

/-! ## The canonical form -/

theorem Memory.mem_insert {m : List Host.Cell} {a : Nat} {b : Byte} {c : Host.Cell}
    (h : c ∈ Memory.insert a b m) : c = (a, b) ∨ c ∈ m := by
  induction m with
  | nil => simpa [Memory.insert] using h
  | cons d m ih =>
    obtain ⟨j, e⟩ := d
    unfold Memory.insert at h
    split at h
    · simpa using h
    · split at h
      · simp only [List.mem_cons] at h ⊢; tauto
      · simp only [List.mem_cons] at h ⊢
        rcases h with h | h
        · tauto
        · rcases ih h with h | h <;> tauto

theorem Memory.mem_erase {m : List Host.Cell} {a : Nat} {c : Host.Cell}
    (h : c ∈ Memory.erase a m) : c ∈ m := by
  induction m with
  | nil => simp [Memory.erase] at h
  | cons d m ih =>
    obtain ⟨j, e⟩ := d
    unfold Memory.erase at h
    split at h
    · exact List.mem_cons_of_mem _ (ih h)
    · simp only [List.mem_cons] at h ⊢
      rcases h with h | h
      · tauto
      · exact .inr (ih h)

theorem Memory.insert_pairwise {m : List Host.Cell} (hm : m.Pairwise (fun c d => c.1 < d.1))
    (a : Nat) (b : Byte) : (Memory.insert a b m).Pairwise (fun c d => c.1 < d.1) := by
  induction m with
  | nil => simp [Memory.insert]
  | cons d m ih =>
    obtain ⟨j, e⟩ := d
    have hd := List.pairwise_cons.1 hm
    unfold Memory.insert
    split
    · next h =>
      refine List.pairwise_cons.2 ⟨fun c hc => ?_, hm⟩
      rcases List.mem_cons.1 hc with rfl | hc
      · exact h
      · exact h.trans (hd.1 c hc)
    · split
      · next h => subst h; exact List.pairwise_cons.2 ⟨fun c hc => hd.1 c hc, hd.2⟩
      · refine List.pairwise_cons.2 ⟨fun c hc => ?_, ih hd.2⟩
        rcases Memory.mem_insert hc with rfl | hc
        · simp only; omega
        · exact hd.1 c hc

theorem Memory.erase_pairwise {m : List Host.Cell} (hm : m.Pairwise (fun c d => c.1 < d.1))
    (a : Nat) : (Memory.erase a m).Pairwise (fun c d => c.1 < d.1) := by
  induction m with
  | nil => simp [Memory.erase]
  | cons d m ih =>
    obtain ⟨j, e⟩ := d
    have hd := List.pairwise_cons.1 hm
    unfold Memory.erase
    split
    · exact ih hd.2
    · exact List.pairwise_cons.2 ⟨fun c hc => hd.1 c (Memory.mem_erase hc), ih hd.2⟩

/-- Every write keeps the canonical form. -/
theorem Memory.write_wf {m : List Host.Cell} (hm : Memory.wf m) (a : Nat) (b : Byte) :
    Memory.wf (Memory.write m a b) := by
  unfold Memory.write
  split
  · next ha =>
    split
    · exact ⟨Memory.erase_pairwise hm.1 a, fun c hc => hm.2 c (Memory.mem_erase hc)⟩
    · next hb =>
      refine ⟨Memory.insert_pairwise hm.1 a b, fun c hc => ?_⟩
      rcases Memory.mem_insert hc with rfl | hc
      · exact ⟨ha, hb⟩
      · exact hm.2 c hc
  · exact hm

theorem Memory.writeAll_wf {m : List Host.Cell} (hm : Memory.wf m) (a : Nat) (bs : List Byte) :
    Memory.wf (Memory.writeAll m a bs) := by
  induction bs generalizing m a with
  | nil => exact hm
  | cons b bs ih => exact ih (Memory.write_wf hm a b) (a + 1)

/-- The reset memory, which lists nothing, is in canonical form. -/
theorem Memory.reset_wf : Memory.wf State.reset.mem := by
  exact ⟨List.Pairwise.nil, fun c hc => by simp [State.reset] at hc⟩

/-! ## Reading after a write -/

/-- Everything one write does: inside memory the address reads as the byte written, and every other
address reads as before. -/
theorem Memory.read_write (m : List Host.Cell) (a k : Nat) (b : Byte) :
    Memory.read (Memory.write m a b) k =
      if k = a ∧ a < Config.memSize then b else Memory.read m k := by
  unfold Memory.write
  split
  · next ha =>
    split
    · next hb => simp [Memory.read_erase, ha, hb]
    · simp [Memory.read_insert, ha]
  · next ha => simp [ha]

theorem Memory.read_write_self (m : List Host.Cell) {a : Nat}
    (ha : a < Config.memSize) (b : Byte) : Memory.read (Memory.write m a b) a = b := by
  rw [Memory.read_write]; simp only [true_and, if_pos ha]

theorem Memory.read_write_ne (m : List Host.Cell) {a k : Nat} (h : k ≠ a)
    (b : Byte) : Memory.read (Memory.write m a b) k = Memory.read m k := by
  simp [Memory.read_write, h]

/-- Everything a block write inside memory does: each byte reads as the one written there, and every
other address reads as before. -/
theorem Memory.read_writeAll (m : List Host.Cell) (a : Nat) (bs : List Byte)
    (h : a + bs.length ≤ Config.memSize) (k : Nat) :
    Memory.read (Memory.writeAll m a bs) k =
      if a ≤ k then (bs[k - a]?).getD (Memory.read m k) else Memory.read m k := by
  induction bs generalizing m a with
  | nil => simp [Memory.writeAll]
  | cons b bs ih =>
    have hlen : a + 1 + bs.length ≤ Config.memSize := by simp at h; omega
    have ha : a < Config.memSize := by omega
    rw [Memory.writeAll, ih (Memory.write m a b) (a + 1) hlen]
    rcases Nat.lt_trichotomy k a with hk | hk | hk
    · have h1 : ¬ a + 1 ≤ k := by omega
      have h2 : ¬ a ≤ k := by omega
      simp [h1, h2, Memory.read_write_ne _ (by omega : k ≠ a)]
    · subst hk
      have h1 : ¬ k + 1 ≤ k := by omega
      simp [h1, Memory.read_write_self _ ha]
    · have h1 : a + 1 ≤ k := by omega
      have h2 : a ≤ k := by omega
      have h3 : k - a = (k - (a + 1)) + 1 := by omega
      simp [h1, h2, h3, Memory.read_write_ne _ (by omega : k ≠ a)]

/-- A block write leaves every address outside the block alone, whatever the list. -/
theorem Memory.read_writeAll_outside (m : List Host.Cell) (a : Nat)
    (bs : List Byte) {k : Nat} (hk : k < a ∨ a + bs.length ≤ k) :
    Memory.read (Memory.writeAll m a bs) k = Memory.read m k := by
  induction bs generalizing m a with
  | nil => rfl
  | cons b bs ih =>
    have : k ≠ a := by simp at hk; omega
    rw [Memory.writeAll, ih (Memory.write m a b) (a + 1) (by simp at hk; omega),
      Memory.read_write_ne _ this]

/-! ## The same on states -/

/-- What a store of bytes inside memory leaves at each address. -/
theorem State.byteAt_storeBytes (s : State) (a : Nat) (bs : List Byte)
    (h : a + bs.length ≤ Config.memSize) (k : Nat) :
    (s.storeBytes a bs).byteAt k =
      if a ≤ k then (bs[k - a]?).getD (s.byteAt k) else s.byteAt k :=
  Memory.read_writeAll _ a bs h k

theorem State.byteAt_storeBytes_outside (s : State) (a : Nat)
    (bs : List Byte) {k : Nat} (hk : k < a ∨ a + bs.length ≤ k) :
    (s.storeBytes a bs).byteAt k = s.byteAt k :=
  Memory.read_writeAll_outside _ a bs hk

end Sys2Proof.Machine
end

