-- ==== Sys2Proof/Laws/Operations.lean ====
section
/-! SUPPORT. One lemma for each shared operation that says everything it can do: the bounds checks, the
array indices, the framebuffer, the drain, the key-wait step, the timers, the transactions. -/

namespace Sys2Proof.Machine

/-! ## Faults -/

@[simp] theorem takeFault_eq (c : FaultCause) (n : Nat) (s : State) :
    takeFault c n s = .next (s.setFault c n) := rfl

/-! ## Bounds checks and indices -/

theorem transferFault_eq_none {base : Word} {len : Nat} :
    transferFault base len = none ↔ len = 0 ∨ base.toNat + len ≤ 4096 := by
  unfold transferFault; split <;> simp_all

theorem transferFault_eq_some {base : Word} {len info : Nat} :
    transferFault base len = some info ↔
      0 < len ∧ 4096 < base.toNat + len ∧ info = max base.toNat 4096 := by
  unfold transferFault Config.memSize
  split
  · next h => simp only [reduceCtorEq, false_iff]; omega
  · next h => simp only [Option.some.injEq]; constructor <;> intro g <;> omega

theorem indexOf_eq_some {b : Byte} {k : Index} : indexOf b = some k ↔ b.toNat = k.val := by
  unfold indexOf
  split
  · simp [Fin.ext_iff]
  · next h => simp only [reduceCtorEq, false_iff]; omega

theorem indexOf_eq_none {b : Byte} : indexOf b = none ↔ 15 < b.toNat := by
  unfold indexOf
  split
  · next h => simp only [reduceCtorEq, false_iff]; omega
  · next h => simp only [true_iff]; omega

theorem stackIndex_eq_some {n : Nat} {j : Index} : stackIndex n = some j ↔ n = j.val := by
  unfold stackIndex
  split
  · simp [Fin.ext_iff]
  · next h => simp only [reduceCtorEq, false_iff]; omega

theorem stackIndex_eq_none {n : Nat} : stackIndex n = none ↔ 15 < n := by
  unfold stackIndex
  split
  · next h => simp only [reduceCtorEq, false_iff]; omega
  · next h => simp only [true_iff]; omega

/-! ## Addresses and narrowings -/

@[simp] theorem zext16_toNat (nnn : BitVec 12) : (zext16 nnn).toNat = nnn.toNat := by
  have := nnn.isLt
  simp only [zext16, BitVec.toNat_setWidth]; omega

/-! ## Blocks of registers and digits -/

@[simp] theorem regBlock_length (s : State) (x : Index) : (s.regBlock x).length = x.val + 1 := by
  simp [State.regBlock]

theorem regBlock_getElem? (s : State) (x : Index) (k : Nat) :
    (s.regBlock x)[k]? = if h : k ≤ x.val then some (s.reg ⟨k, by omega⟩) else none := by
  unfold State.regBlock
  split
  · next h =>
    have h1 : k < x.val + 1 := by omega
    simp [h1, State.reg]
  · next h => simp; omega

@[simp] theorem bcdDigits_length (b : Byte) : (bcdDigits b).length = 3 := rfl

/-! ## Framebuffer -/

theorem Framebuffer.cell_of_ge (f : Framebuffer) {j : Nat} (h : 2048 ≤ j) : f.cell j = false := by
  have : ¬ j / 32 < 64 := by omega
  simp [Framebuffer.cell, this]

/-- Everything a flip does: inside the framebuffer the cell is negated, every other cell stays. -/
theorem Framebuffer.cell_flip (f : Framebuffer) (j k : Nat) :
    (f.flip j).cell k = (f.cell k ^^ decide (k = j ∧ j < 2048)) := by
  unfold Framebuffer.flip Framebuffer.cell
  by_cases hj : j / 32 < 64
  · by_cases hk : k / 32 < 64
    · by_cases hd : j / 32 = k / 32
      · have hm : k % 32 < 32 := by omega
        have : decide (j % 32 = k % 32) = decide (k = j ∧ j < 2048) := by
          rw [decide_eq_decide]; omega
        have h2 : (BitVec.twoPow 32 (j % 32)).getLsbD (k % 32) = decide (k = j ∧ j < 2048) := by
          rw [BitVec.getLsbD_twoPow, this]; simp; omega
        simp only [dif_pos hk, hd, Vector.getElem_set_self, BitVec.getLsbD_xor, h2]
      · have : ¬ (k = j ∧ j < 2048) := by omega
        simp [hj, hk, Vector.getElem_set_ne, hd, this]
    · have : ¬ (k = j ∧ j < 2048) := by omega
      simp [hk, this]
  · have : ¬ (k = j ∧ j < 2048) := by omega
    simp [hj, this]

@[simp] theorem Framebuffer.cell_blank (j : Nat) : Framebuffer.blank.cell j = false := by
  unfold Framebuffer.cell Framebuffer.blank; split <;> simp

/-- Two framebuffers with the same 2048 cells are equal. -/
theorem Framebuffer.ext_cell {f g : Framebuffer} (h : ∀ j < 2048, f.cell j = g.cell j) : f = g := by
  refine Vector.ext fun i hi => BitVec.eq_of_getLsbD_eq fun b hb => ?_
  have hj := h (i * 32 + b) (by omega)
  have h1 : (i * 32 + b) / 32 = i := by omega
  have h2 : (i * 32 + b) % 32 = b := by omega
  have h3 : (i * 32 + b) / 32 < 64 := by omega
  simp only [Framebuffer.cell, h3, dif_pos] at hj
  simpa [h1, h2] using hj

theorem Framebuffer.ne_blank_iff (f : Framebuffer) :
    (f != Framebuffer.blank) = true ↔ ∃ j < 2048, f.cell j = true := by
  rw [bne_iff_ne]
  constructor
  · intro h
    by_contra hn
    push Not at hn
    exact h (Framebuffer.ext_cell fun j hj => by simpa using hn j hj)
  · rintro ⟨j, -, hj⟩ rfl
    simp at hj

/-! ## Keys, drain and the key-wait step -/

theorem foldl_applyKey (s : State) (q : List KeyEvent) :
    q.foldl State.applyKey s = { s with keys := keysAfter s.keys q } := by
  induction q generalizing s with
  | nil => rfl
  | cons e q ih => rw [List.foldl_cons, ih]; rfl

/-- Everything the drain does (R58). -/
theorem drain_eq (s : State) :
    s.drain = { s with keys := keysAfter s.keys s.queue, queue := [] } := by
  rw [State.drain, foldl_applyKey]; rfl

/-- The state the execute phase starts from. -/
theorem fetched_eq (s : State) : s.takeNext.beginStep.drain.advance = fetched s := by
  rw [drain_eq]; rfl

theorem lowestHeld_eq_none {s : State} : s.lowestHeld = none ↔ ∀ k : Index, s.keys[k] = false := by
  simp [State.lowestHeld]

/-- What the lowest held key is (R104). -/
theorem lowestHeld_eq_some {s : State} {k : Index} (h : s.lowestHeld = some k) :
    s.keys[k] = true ∧ ∀ j : Index, j < k → s.keys[j] = false := by
  unfold State.lowestHeld at h
  refine ⟨by simpa using List.find?_some (p := fun k : Index => s.keys[k]) h, fun j hj => ?_⟩
  obtain ⟨-, as, bs, hl, has⟩ := List.find?_eq_some_iff_append.1 h
  have hmem : j ∈ as := by
    have hsort : (List.finRange 16).Pairwise (· < ·) := List.pairwise_lt_finRange 16
    have hj' : j ∈ as ++ k :: bs := hl ▸ List.mem_finRange j
    rw [hl, List.pairwise_append, List.pairwise_cons] at hsort
    rcases List.mem_append.1 hj' with h1 | h1
    · exact h1
    · rcases List.mem_cons.1 h1 with rfl | h1
      · exact absurd hj (lt_irrefl _)
      · exact absurd (hsort.2.1.1 j h1) (not_lt.2 hj.le)
  simpa using has j hmem

/-! ## Timers and the other transactions -/

theorem countDown_toNat (b : Byte) : (countDown b).toNat = b.toNat - 1 := by
  unfold countDown
  split
  · next h => subst h; rfl
  · next h =>
    have : b.toNat ≠ 0 := fun e => h (BitVec.eq_of_toNat_eq (by simpa using e))
    have := b.isLt
    rw [BitVec.toNat_sub]; simp; omega

theorem load_fresh {s : State} (h : s.boot = .fresh) (image : List Byte) :
    s.load image = { s.storeBytes 0x200 (image.take 3584) with boot := .loaded } := by
  simp [State.load, h]

theorem load_not_fresh {s : State} (h : s.boot ≠ .fresh) (image : List Byte) :
    s.load image = s := by
  unfold State.load; split <;> simp_all

theorem channelFail_eq (s : State) :
    s.channelFail = if s.fault = none then s.setFault .channelBroken 0 else s := by
  unfold State.channelFail; split <;> simp_all

/-! ## The step -/

theorem State.nextUp_cons {s : State} {t : Transaction} {rest : List Transaction}
    (h : s.schedule = t :: rest) : s.nextUp = t := by
  simp [State.nextUp, h]

theorem State.nextUp_nil {s : State} (h : s.schedule = []) : s.nextUp = .step := by
  simp [State.nextUp, h]

theorem step_eq (s : State) : step s = transact s.nextUp s.takeNext := rfl

theorem step_of_schedule {s : State} {t : Transaction} {rest : List Transaction}
    (h : s.schedule = t :: rest) : step s = transact t { s with schedule := rest } := by
  rw [step_eq, State.nextUp_cons h, State.takeNext, h, List.tail_cons]

theorem step_of_nextIs {s : State} {t : Transaction} (h : nextIs s t) :
    step s = transact t s.takeNext := by
  rw [step_eq, show s.nextUp = t from h]

theorem step_of_dispatching {s : State} (h : Dispatching s) : step s = dispatcherStep s.takeNext :=
  step_of_nextIs h

/-- A step's next state is where the rest of a run goes on. -/
theorem run_succ {M : Host.Core} {s t : M.State} (h : M.step s = .next t) (n : Nat) :
    M.run (n + 1) s = M.run n t := by
  rw [Host.Core.run, h]

theorem core_run_succ {s t : State} (h : step s = .next t) (n : Nat) :
    core.run (n + 1) s = core.run n t :=
  run_succ (M := core) h n

theorem dispatcherStep_halted {s : State} {r : FaultRecord} (h : s.fault = some r) :
    dispatcherStep s = .next s.beginStep := by
  simp [dispatcherStep, h]

theorem dispatcherStep_waiting {s : State} {x : Index} (hf : s.fault = none)
    (hw : s.wait = some x) : dispatcherStep s = .next (waitStep x s.beginStep) := by
  simp [dispatcherStep, hf, hw]

theorem dispatcherStep_running {s : State} (hf : s.fault = none) (hw : s.wait = none) :
    dispatcherStep s = fetchAndExecute s.beginStep.drain := by
  simp [dispatcherStep, hf, hw]

theorem step_of_ready {s : State} (h : Ready s) :
    step s = fetchAndExecute s.takeNext.beginStep.drain := by
  rw [step_of_dispatching h.1]
  exact dispatcherStep_running h.2.1 h.2.2

/-- Everything the fetch, decode and execute phases can do. -/
theorem fetchAndExecute_eq (s : State) :
    fetchAndExecute s =
      if 4094 < s.pc.toNat then .next (s.setFault .memIndex (max s.pc.toNat 4096))
      else match decodeWord s.fetchWord with
        | .ok i => exec i s.advance
        | .error _ => .next (s.advance.setFault .unknownOpcode s.fetchWord.toNat) := by
  unfold fetchAndExecute State.fetchFault
  split
  · next info h =>
    obtain ⟨-, h1, rfl⟩ := transferFault_eq_some.1 h
    rw [if_pos (by omega)]; rfl
  · next h =>
    rw [transferFault_eq_none] at h
    rw [if_neg (by omega)]
    split <;> simp_all

end Sys2Proof.Machine
end

