-- ==== Sys2Proof/Laws/Frame.lean ====
section
/-! SUPPORT. Frames: how `OnlyChanges` composes, and the frame of each shared operation. -/

namespace Sys2Proof.Machine

theorem SameAt.refl (c : Cell) (s : State) : SameAt c s s := by cases c <;> rfl

theorem SameAt.trans {c : Cell} {s t u : State} (h : SameAt c s t) (g : SameAt c t u) :
    SameAt c s u := by
  cases c <;> exact Eq.trans g h

theorem OnlyChanges.refl (cells : Set Cell) (s : State) : OnlyChanges cells s s :=
  fun c _ => SameAt.refl c s

theorem OnlyChanges.mono {a b : Set Cell} {s t : State} (h : OnlyChanges a s t) (hab : a ⊆ b) :
    OnlyChanges b s t :=
  fun c hc => h c fun ha => hc (hab ha)

theorem OnlyChanges.trans {a b : Set Cell} {s t u : State} (h : OnlyChanges a s t)
    (g : OnlyChanges b t u) : OnlyChanges (a ∪ b) s u :=
  fun c hc => (h c fun hca => hc (.inl hca)).trans (g c fun hcb => hc (.inr hcb))

/-- Two changes of the same cells in a row. -/
theorem OnlyChanges.trans_same {a : Set Cell} {s t u : State} (h : OnlyChanges a s t)
    (g : OnlyChanges a t u) : OnlyChanges a s u :=
  (h.trans g).mono (by simp)

variable (s : State)

theorem onlyChanges_setReg (r : Index) (b : Byte) : OnlyChanges {.V r} s (s.setReg r b) := by
  intro c hc
  cases c with
  | V q =>
    have : q ≠ r := fun e => hc (by simp [e])
    exact s.reg_setReg_ne b this
  | _ => rfl

theorem onlyChanges_setI (w : Word) : OnlyChanges {.I} s (s.setI w) := by
  intro c hc; cases c <;> first | rfl | simp at hc

theorem onlyChanges_setPc (w : Word) : OnlyChanges {.pc} s (s.setPc w) := by
  intro c hc; cases c <;> first | rfl | simp at hc

theorem onlyChanges_skipIf (b : Bool) : OnlyChanges {.pc} s (s.skipIf b) := by
  rw [State.skipIf_eq]; exact onlyChanges_setPc s _

theorem onlyChanges_setDT (b : Byte) : OnlyChanges {.DT} s (s.setDT b) := by
  intro c hc; cases c <;> first | rfl | simp at hc

theorem onlyChanges_setST (b : Byte) : OnlyChanges {.ST} s (s.setST b) := by
  intro c hc; cases c <;> first | rfl | simp at hc

theorem onlyChanges_setWait (w : Option Index) : OnlyChanges {.wait} s (s.setWait w) := by
  intro c hc; cases c <;> first | rfl | simp at hc

theorem onlyChanges_setQueue (q : List KeyEvent) : OnlyChanges {.queue} s (s.setQueue q) := by
  intro c hc; cases c <;> first | rfl | simp at hc

theorem onlyChanges_setFault (k : FaultCause) (n : Nat) :
    OnlyChanges {.fault} s (s.setFault k n) := by
  intro c hc; cases c <;> first | rfl | simp at hc

theorem onlyChanges_countDraw : OnlyChanges {.draws} s s.countDraw := by
  intro c hc; cases c <;> first | rfl | simp at hc

theorem onlyChanges_takeNext : OnlyChanges {.schedule} s s.takeNext := by
  intro c hc; cases c <;> first | rfl | simp at hc

theorem onlyChanges_beginStep : OnlyChanges {.notify, .boot} s s.beginStep := by
  intro c hc; cases c <;> first | rfl | simp at hc

theorem onlyChanges_notifyIf (b : Bool) :
    OnlyChanges {.notify, .redrawPending} s (s.notifyIf b) := by
  rw [State.notifyIf_eq]; intro c hc; cases c <;> first | rfl | simp at hc

theorem onlyChanges_setFb (f : Framebuffer) :
    OnlyChanges (Set.range Cell.pixel) s (s.setFb f) := by
  intro c hc; cases c <;> first | rfl | simp at hc

theorem onlyChanges_pop (j : Index) : OnlyChanges {.pc, .sp} s (s.pop j) := by
  intro c hc; cases c <;> first | rfl | simp at hc

theorem onlyChanges_push (j : Index) (w : Word) : OnlyChanges {.sp, .stack j} s (s.push j w) := by
  intro c hc
  cases c with
  | stack q =>
    have : j.val ≠ q.val := fun e => hc (by simp [Fin.ext_iff, e])
    simp [SameAt, Vector.getElem_set_ne, this]
  | sp => simp at hc
  | _ => rfl

theorem onlyChanges_applyKey (e : KeyEvent) : OnlyChanges {.key e.code} s (s.applyKey e) := by
  intro c hc
  cases c with
  | key q =>
    have : e.code.val ≠ q.val := fun h => hc (by simp [Fin.ext_iff, h])
    simp [SameAt, Vector.getElem_set_ne, this]
  | _ => rfl

theorem onlyChanges_storeBytes (a : Nat) (bs : List Byte) :
    OnlyChanges (bytesAt a bs.length) s (s.storeBytes a bs) := by
  intro c hc
  cases c with
  | byte k =>
    refine State.byteAt_storeBytes_outside s a bs ?_
    by_contra h
    exact hc ⟨k - a, by omega, by rw [Cell.byte.injEq]; omega⟩
  | _ => rfl

theorem onlyChanges_loadBlock (x : Index) :
    OnlyChanges {c | ∃ k ≤ x, c = .V k} s (s.loadBlock x) := by
  intro c hc
  cases c with
  | V q =>
    have : ¬ q ≤ x := fun h => hc ⟨q, h, rfl⟩
    simp [SameAt, State.reg_loadBlock, this]
  | _ => simp [SameAt]

end Sys2Proof.Machine
end

