-- ==== Sys2Proof/Laws/PerInstr.lean ====
section
/-! SUPPORT. Per-instruction lemmas about the instruction as syntax: the encoder's word lies in the row of
spec/30_encoding.md R50 that the instruction stands in, and that row is in the opcode map. -/

namespace Sys2Proof.Laws.EncodedInRow

/-! ## What the masks of the map keep of an encoded word -/

theorem encodeNNN_masked (hi : BitVec 4) (nnn : BitVec 12) :
    encodeNNN hi nnn &&& 0xF000#16 = encodeNNN hi 0 := by
  rw [and_maskNNN, hiField_encodeNNN]

theorem encodeXKK_masked_hi (hi : BitVec 4) (x : Index) (kk : Byte) :
    encodeXKK hi x kk &&& 0xF000#16 = encodeNNN hi 0 := by
  rw [and_maskNNN, hiField_encodeXKK]

theorem encodeXYN_masked_hi (hi : BitVec 4) (x y : Index) (n : BitVec 4) :
    encodeXYN hi x y n &&& 0xF000#16 = encodeNNN hi 0 := by
  rw [and_maskNNN, hiField_encodeXYN]

theorem encodeXYN_masked (hi : BitVec 4) (x y : Index) (n : BitVec 4) :
    encodeXYN hi x y n &&& 0xF00F#16 = encodeXYN hi 0 0 n := by
  rw [and_maskXY, hiField_encodeXYN, nField_encodeXYN]

theorem encodeXKK_masked (hi : BitVec 4) (x : Index) (kk : Byte) :
    encodeXKK hi x kk &&& 0xF0FF#16 = encodeXKK hi 0 kk := by
  rw [and_maskXB, hiField_encodeXKK, kkField_encodeXKK]

/-! ## The statement and its lemmas -/

/-- The encoded word has the constant bits of the instruction's row. -/
def Statement (i : Instr) : Prop :=
  i.row ∈ opcodeRows ∧ encode i &&& i.row.mask = i.row.pattern

theorem cls : Statement .cls :=
  ⟨by decide, by decide⟩

theorem ret : Statement .ret :=
  ⟨by decide, by decide⟩

theorem jp (nnn : BitVec 12) : Statement (.jp nnn) :=
  ⟨by simp [Instr.row, opcodeRows], (encodeNNN_masked _ _).trans rfl⟩

theorem call (nnn : BitVec 12) : Statement (.call nnn) :=
  ⟨by simp [Instr.row, opcodeRows], (encodeNNN_masked _ _).trans rfl⟩

theorem seImm (x : Index) (kk : Byte) : Statement (.seImm x kk) :=
  ⟨by simp [Instr.row, opcodeRows], (encodeXKK_masked_hi _ _ _).trans rfl⟩

theorem sneImm (x : Index) (kk : Byte) : Statement (.sneImm x kk) :=
  ⟨by simp [Instr.row, opcodeRows], (encodeXKK_masked_hi _ _ _).trans rfl⟩

theorem seReg (x y : Index) : Statement (.seReg x y) :=
  ⟨by simp [Instr.row, opcodeRows], (encodeXYN_masked _ _ _ _).trans rfl⟩

theorem sneReg (x y : Index) : Statement (.sneReg x y) :=
  ⟨by simp [Instr.row, opcodeRows], (encodeXYN_masked _ _ _ _).trans rfl⟩

theorem ldImm (x : Index) (kk : Byte) : Statement (.ldImm x kk) :=
  ⟨by simp [Instr.row, opcodeRows], (encodeXKK_masked_hi _ _ _).trans rfl⟩

theorem addImm (x : Index) (kk : Byte) : Statement (.addImm x kk) :=
  ⟨by simp [Instr.row, opcodeRows], (encodeXKK_masked_hi _ _ _).trans rfl⟩

theorem ldReg (x y : Index) : Statement (.ldReg x y) :=
  ⟨by simp [Instr.row, opcodeRows], (encodeXYN_masked _ _ _ _).trans rfl⟩

theorem orReg (x y : Index) : Statement (.orReg x y) :=
  ⟨by simp [Instr.row, opcodeRows], (encodeXYN_masked _ _ _ _).trans rfl⟩

theorem andReg (x y : Index) : Statement (.andReg x y) :=
  ⟨by simp [Instr.row, opcodeRows], (encodeXYN_masked _ _ _ _).trans rfl⟩

theorem xorReg (x y : Index) : Statement (.xorReg x y) :=
  ⟨by simp [Instr.row, opcodeRows], (encodeXYN_masked _ _ _ _).trans rfl⟩

theorem addReg (x y : Index) : Statement (.addReg x y) :=
  ⟨by simp [Instr.row, opcodeRows], (encodeXYN_masked _ _ _ _).trans rfl⟩

theorem subReg (x y : Index) : Statement (.subReg x y) :=
  ⟨by simp [Instr.row, opcodeRows], (encodeXYN_masked _ _ _ _).trans rfl⟩

theorem shr (x y : Index) : Statement (.shr x y) :=
  ⟨by simp [Instr.row, opcodeRows], (encodeXYN_masked _ _ _ _).trans rfl⟩

theorem subnReg (x y : Index) : Statement (.subnReg x y) :=
  ⟨by simp [Instr.row, opcodeRows], (encodeXYN_masked _ _ _ _).trans rfl⟩

theorem shl (x y : Index) : Statement (.shl x y) :=
  ⟨by simp [Instr.row, opcodeRows], (encodeXYN_masked _ _ _ _).trans rfl⟩

theorem ldI (nnn : BitVec 12) : Statement (.ldI nnn) :=
  ⟨by simp [Instr.row, opcodeRows], (encodeNNN_masked _ _).trans rfl⟩

theorem jpV0 (nnn : BitVec 12) : Statement (.jpV0 nnn) :=
  ⟨by simp [Instr.row, opcodeRows], (encodeNNN_masked _ _).trans rfl⟩

theorem rnd (x : Index) (kk : Byte) : Statement (.rnd x kk) :=
  ⟨by simp [Instr.row, opcodeRows], (encodeXKK_masked_hi _ _ _).trans rfl⟩

theorem drw (x y : Index) (n : Nat) : Statement (.drw x y n) :=
  ⟨by simp [Instr.row, opcodeRows], (encodeXYN_masked_hi _ _ _ _).trans rfl⟩

theorem skp (x : Index) : Statement (.skp x) :=
  ⟨by simp [Instr.row, opcodeRows], (encodeXKK_masked _ _ _).trans rfl⟩

theorem sknp (x : Index) : Statement (.sknp x) :=
  ⟨by simp [Instr.row, opcodeRows], (encodeXKK_masked _ _ _).trans rfl⟩

theorem ldVxDT (x : Index) : Statement (.ldVxDT x) :=
  ⟨by simp [Instr.row, opcodeRows], (encodeXKK_masked _ _ _).trans rfl⟩

theorem ldDTVx (x : Index) : Statement (.ldDTVx x) :=
  ⟨by simp [Instr.row, opcodeRows], (encodeXKK_masked _ _ _).trans rfl⟩

theorem ldSTVx (x : Index) : Statement (.ldSTVx x) :=
  ⟨by simp [Instr.row, opcodeRows], (encodeXKK_masked _ _ _).trans rfl⟩

theorem ldVxK (x : Index) : Statement (.ldVxK x) :=
  ⟨by simp [Instr.row, opcodeRows], (encodeXKK_masked _ _ _).trans rfl⟩

theorem addI (x : Index) : Statement (.addI x) :=
  ⟨by simp [Instr.row, opcodeRows], (encodeXKK_masked _ _ _).trans rfl⟩

theorem ldF (x : Index) : Statement (.ldF x) :=
  ⟨by simp [Instr.row, opcodeRows], (encodeXKK_masked _ _ _).trans rfl⟩

theorem ldB (x : Index) : Statement (.ldB x) :=
  ⟨by simp [Instr.row, opcodeRows], (encodeXKK_masked _ _ _).trans rfl⟩

theorem storeRegs (x : Index) : Statement (.storeRegs x) :=
  ⟨by simp [Instr.row, opcodeRows], (encodeXKK_masked _ _ _).trans rfl⟩

theorem loadRegs (x : Index) : Statement (.loadRegs x) :=
  ⟨by simp [Instr.row, opcodeRows], (encodeXKK_masked _ _ _).trans rfl⟩

end Sys2Proof.Laws.EncodedInRow
end

