-- ==== Sys2Proof/Tests/Slice0.lean ====
section
/-! SUPPORT. Tests. Words and expected results are those of spec/30_encoding.md R50 and
spec/95_test_vectors.md (the vector's number stands at each test), or hand calculation from the rules;
none is the model's own answer. Then, for every statement with hypotheses, a witness that meets them. -/

namespace Sys2Proof.Tests

open Sys2Proof.Machine

/-! ## Helpers -/

/-- The word stored at `a`, with `pc` there. -/
def placed (a w : Word) (s : State) : State :=
  { s.storeBytes a.toNat (tableBytes 16 w.toNat) with pc := a }

/-- A fresh machine with the word at 0x200. -/
def fresh (w : Word) : State := placed 0x200 w State.reset

/-- One step answers a next state with the property. -/
def check (s : State) (p : State → Bool) : Bool :=
  match step s with
  | .next t => p t
  | .fault _ => false
  | .refused _ => false

/-- A framebuffer with exactly these cells set. -/
def screen (cells : List Nat) : Framebuffer := cells.foldl Framebuffer.flip Framebuffer.blank

/-! ## WellFormed -/

theorem test_wf_drw_row_count_fits : (Instr.drw 1 2 15).wellFormed = true := by decide
theorem test_wf_drw_row_count_too_large : (Instr.drw 1 2 16).wellFormed = false := by decide

/-! ## Identity -/

/-- R1's pair of repository and block, and the document revision. -/
theorem test_identity : Config.identity = ⟨"hesslink111/Rip8", "CORE", "v7"⟩ := by decide

/-! ## Decoding: a word of every constructor, from R50's patterns -/

theorem test_decode_flow :
    decodeWord 0x00E0 = .ok .cls ∧ decodeWord 0x00EE = .ok .ret ∧
    decodeWord 0x1ABC = .ok (.jp 0xABC) ∧ decodeWord 0x2123 = .ok (.call 0x123) ∧
    decodeWord 0x3A05 = .ok (.seImm 10 0x05) ∧ decodeWord 0x4BF0 = .ok (.sneImm 11 0xF0) ∧
    decodeWord 0x5120 = .ok (.seReg 1 2) ∧ decodeWord 0x9AB0 = .ok (.sneReg 10 11) ∧
    decodeWord 0xBABC = .ok (.jpV0 0xABC) := by decide

theorem test_decode_registers :
    decodeWord 0x6A05 = .ok (.ldImm 10 0x05) ∧ decodeWord 0x7A10 = .ok (.addImm 10 0x10) ∧
    decodeWord 0xC3A5 = .ok (.rnd 3 0xA5) ∧ decodeWord 0x8120 = .ok (.ldReg 1 2) ∧
    decodeWord 0x8121 = .ok (.orReg 1 2) ∧ decodeWord 0x8122 = .ok (.andReg 1 2) ∧
    decodeWord 0x8123 = .ok (.xorReg 1 2) := by decide

theorem test_decode_arithmetic :
    decodeWord 0x8344 = .ok (.addReg 3 4) ∧ decodeWord 0x8345 = .ok (.subReg 3 4) ∧
    decodeWord 0x8346 = .ok (.shr 3 4) ∧ decodeWord 0x8347 = .ok (.subnReg 3 4) ∧
    decodeWord 0x834E = .ok (.shl 3 4) := by decide

theorem test_decode_memory_and_display :
    decodeWord 0xA123 = .ok (.ldI 0x123) ∧ decodeWord 0xF21E = .ok (.addI 2) ∧
    decodeWord 0xF329 = .ok (.ldF 3) ∧ decodeWord 0xF433 = .ok (.ldB 4) ∧
    decodeWord 0xF555 = .ok (.storeRegs 5) ∧ decodeWord 0xF665 = .ok (.loadRegs 6) ∧
    decodeWord 0xD12F = .ok (.drw 1 2 15) := by decide

theorem test_decode_keys_and_timers :
    decodeWord 0xE19E = .ok (.skp 1) ∧ decodeWord 0xE2A1 = .ok (.sknp 2) ∧
    decodeWord 0xF307 = .ok (.ldVxDT 3) ∧ decodeWord 0xF40A = .ok (.ldVxK 4) ∧
    decodeWord 0xF515 = .ok (.ldDTVx 5) ∧ decodeWord 0xF618 = .ok (.ldSTVx 6) := by decide

/-- One word a family, bit by bit: hi, x, y or kk, n. -/
theorem test_decode_bits :
    decodeWord 0b1010000100100011 = .ok (.ldI 0x123) ∧
    decodeWord 0b0110101000000101 = .ok (.ldImm 10 5) ∧
    decodeWord 0b1000001101000101 = .ok (.subReg 3 4) ∧
    decodeWord 0b1101000100101111 = .ok (.drw 1 2 15) ∧
    decodeWord 0b1110001010100001 = .ok (.sknp 2) ∧
    decodeWord 0b1111010000110011 = .ok (.ldB 4) ∧
    decodeWord 0b0010000100100011 = .ok (.call 0x123) := by decide

/-- The illegal words of spec/95_test_vectors.md section 2.1. -/
theorem test_decode_illegal :
    ([0x00E1, 0x00EF, 0x0000, 0x01E0, 0x0123, 0x5121, 0x9AB1, 0x8128, 0x812D, 0x812F, 0xE19F,
      0xE100, 0xE1A0, 0xF100, 0xF108, 0xF166, 0xF1FF] : List Word).all
      (fun w => match decodeWord w with
        | .ok _ => false
        | .error r => decide (r = .illegalWord w)) = true := by decide

theorem test_decode_bytes_high_first :
    decodeBytes [0x6A, 0x05, 0x7A] = .ok (.ldImm 10 5, [0x7A]) ∧
    decodeBytes [0x6A] = .error .tooFewBytes ∧
    decodeTableWord 16 0x6A05 = some (.ldImm 10 5) := by decide

/-! ## The cycle -/

/-- T2. -/
theorem test_drain : check { fresh 0x7000 with queue := [⟨3, true⟩, ⟨3, false⟩, ⟨4, true⟩] }
    (fun t => !t.keys[3] && t.keys[4] && t.queue.isEmpty && t.pc == 0x202) = true := by decide

/-- T3 with T7: the drain is not undone. -/
theorem test_fetch_fault : check { State.reset with pc := 0xFFF, queue := [⟨2, true⟩] }
    (fun t => t.fault == some ⟨.memIndex, 4096⟩ && t.pc == 0xFFF && t.keys[2] && t.queue.isEmpty) =
      true := by decide

/-- T6. -/
theorem test_fetch_last_word : check (placed 0xFFE 0x6007 State.reset)
    (fun t => t.reg 0 == 7 && t.pc == 0x1000 && t.fault.isNone) = true := by decide

/-- T9. -/
theorem test_illegal_word : check (fresh 0xFFFF)
    (fun t => t.fault == some ⟨.unknownOpcode, 0xFFFF⟩ && t.pc == 0x202) = true := by decide

/-- T10. -/
theorem test_halted : check { fresh 0x6A05 with
      fault := some ⟨.unknownOpcode, 0xFFFF⟩, queue := [⟨1, true⟩] }
    (fun t => t.queue == [⟨1, true⟩] && !t.keys[1] && t.pc == 0x200 && !t.notify && t.reg 10 == 0) =
      true := by decide

/-- T11. -/
theorem test_odd_pc : check (placed 0x203 0x6B07 State.reset)
    (fun t => t.reg 11 == 7 && t.pc == 0x205) = true := by decide

/-- T156. -/
theorem test_wait_release : check { (State.reset.applyKey ⟨5, true⟩) with
      wait := some 0, queue := [⟨5, false⟩, ⟨7, true⟩, ⟨2, true⟩] }
    (fun t => !t.keys[5] && t.queue == [⟨7, true⟩, ⟨2, true⟩] && t.wait == some 0 && t.pc == 0x200) =
      true := by decide

/-- T157. -/
theorem test_wait_press : check { State.reset with
      wait := some 0, queue := [⟨7, true⟩, ⟨2, true⟩] }
    (fun t => t.keys[7] && !t.keys[2] && t.reg 0 == 7 && t.wait.isNone && t.queue == [⟨2, true⟩] &&
      t.pc == 0x200) = true := by decide

/-! ## Control transfer -/

/-- T20. -/
theorem test_ret : check { placed 0x212 0x00EE State.reset with
      sp := 1, stack := State.reset.stack.set 1 0x206 }
    (fun t => t.pc == 0x206 && t.sp == 0 && t.stack[1] == 0x206) = true := by decide

/-- T21. -/
theorem test_ret_empty : check (fresh 0x00EE)
    (fun t => t.fault == some ⟨.stackIndex, 0⟩ && t.pc == 0x202 && t.sp == 0) = true := by decide

/-- T22. -/
theorem test_jp : check (placed 0x208 0x1208 State.reset) (fun t => t.pc == 0x208) = true := by decide

/-- T24. -/
theorem test_call : check (placed 0x204 0x2210 State.reset)
    (fun t => t.sp == 1 && t.stack[1] == 0x206 && t.pc == 0x210 && t.stack[0] == 0) = true := by decide

/-- T26. -/
theorem test_call_full : check { placed 0x250 0x2300 State.reset with sp := 15 }
    (fun t => t.fault == some ⟨.stackIndex, 16⟩ && t.sp == 15 && t.pc == 0x252) = true := by decide

/-- T27, T28. -/
theorem test_se_imm : check (placed 0x208 0x3100 State.reset) (fun t => t.pc == 0x20C) = true ∧
    check ((placed 0x208 0x3100 State.reset).setReg 1 1) (fun t => t.pc == 0x20A) = true := by decide

/-- T30, T31. -/
theorem test_sne_imm :
    check ((placed 0x208 0x4100 State.reset).setReg 1 4) (fun t => t.pc == 0x20C) = true ∧
    check (placed 0x208 0x4100 State.reset) (fun t => t.pc == 0x20A) = true := by decide

/-- T32, T33. -/
theorem test_se_reg :
    check (((fresh 0x5230).setReg 2 7).setReg 3 7) (fun t => t.pc == 0x204) = true ∧
    check (((fresh 0x5230).setReg 2 7).setReg 3 8) (fun t => t.pc == 0x202) = true := by decide

/-- T35, T36. -/
theorem test_sne_reg :
    check (((fresh 0x9230).setReg 2 7).setReg 3 8) (fun t => t.pc == 0x204) = true ∧
    check (fresh 0x9440) (fun t => t.pc == 0x202) = true := by decide

/-- T38. -/
theorem test_jp_v0 : check ((fresh 0xBFFF).setReg 0 0xFF) (fun t => t.pc == 0x10FE) = true := by decide

/-! ## Registers and arithmetic -/

/-- T51. -/
theorem test_ld_imm : check ((fresh 0x6F00).setReg 15 1) (fun t => t.reg 15 == 0) = true := by decide

/-- T54. -/
theorem test_add_imm : check (((fresh 0x71FF).setReg 1 1).setReg 15 0x55)
    (fun t => t.reg 1 == 0 && t.reg 15 == 0x55) = true := by decide

/-- T55. -/
theorem test_ld_reg : check ((fresh 0x8120).setReg 2 0x7C)
    (fun t => t.reg 1 == 0x7C && t.reg 2 == 0x7C) = true := by decide

/-- T56. -/
theorem test_or : check ((((fresh 0x8121).setReg 1 0x0C).setReg 2 0x0A).setReg 15 1)
    (fun t => t.reg 1 == 0x0E && t.reg 15 == 1) = true := by decide

/-- T58. -/
theorem test_and_is_union : check (((fresh 0x8122).setReg 1 0xF0).setReg 2 0x0F)
    (fun t => t.reg 1 == 0xFF) = true := by decide

/-- T59. -/
theorem test_xor : check (((fresh 0x8123).setReg 1 0x0C).setReg 2 0x0A)
    (fun t => t.reg 1 == 0x06) = true := by decide

/-- T61, T64. -/
theorem test_add : check (((fresh 0x8014).setReg 0 0xFF).setReg 1 1)
      (fun t => t.reg 0 == 0 && t.reg 15 == 1) = true ∧
    check (((fresh 0x8F14).setReg 15 0xF0).setReg 1 0x20) (fun t => t.reg 15 == 0x10) = true := by
  decide

/-- T68, T69. -/
theorem test_sub : check (((fresh 0x8015).setReg 0 0x05).setReg 1 0x0A)
      (fun t => t.reg 0 == 0xFB && t.reg 15 == 0) = true ∧
    check ((((fresh 0x8015).setReg 0 7).setReg 1 7).setReg 15 1)
      (fun t => t.reg 0 == 0 && t.reg 15 == 0) = true := by decide

/-- T72, T73. -/
theorem test_shr : check ((((fresh 0x8376).setReg 3 4).setReg 7 0xFF).setReg 15 1)
      (fun t => t.reg 3 == 2 && t.reg 15 == 0 && t.reg 7 == 0xFF) = true ∧
    check ((fresh 0x8F06).setReg 15 5) (fun t => t.reg 15 == 2) = true := by decide

/-- T75, T76. -/
theorem test_subn : check (((fresh 0x8017).setReg 0 0x05).setReg 1 0x0A)
      (fun t => t.reg 0 == 0x05 && t.reg 15 == 1) = true ∧
    check (((fresh 0x8017).setReg 0 0x0A).setReg 1 0x05)
      (fun t => t.reg 0 == 0xFB && t.reg 15 == 0) = true := by decide

/-- T78, T79. -/
theorem test_shl : check ((fresh 0x830E).setReg 3 0x81)
      (fun t => t.reg 3 == 2 && t.reg 15 == 1) = true ∧
    check (((fresh 0x830E).setReg 3 0x7F).setReg 15 1)
      (fun t => t.reg 3 == 0xFE && t.reg 15 == 0) = true := by decide

/-- T82: whatever the free byte is. -/
theorem test_rnd_mask_zero : exec (.rnd 0 0) (State.reset.setReg 0 9) =
    .next ((State.reset.setReg 0 9).setReg 0 0).countDraw := by
  simp [exec, execRnd]

/-! ## Address register and transfers -/

/-- T90. -/
theorem test_ld_i : check ((fresh 0xA300).setI 0xFFFF) (fun t => t.I == 0x300) = true := by decide

/-- T91, T93. -/
theorem test_add_i : check (((fresh 0xF21E).setI 0xFFE).setReg 2 5)
      (fun t => t.I == 0x1003 && t.fault.isNone) = true ∧
    check (((fresh 0xF01E).setI 0xFF01).setReg 0 0xFF)
      (fun t => t.fault == some ⟨.addrOverflow, 0x10000⟩ && t.I == 0xFF01) = true := by decide

/-- T96, T97. -/
theorem test_ld_f : check ((fresh 0xF029).setReg 0 15) (fun t => t.I == 0x4B) = true ∧
    check (((fresh 0xF029).setReg 0 16).setI 0x123)
      (fun t => t.fault == some ⟨.fontIndex, 16⟩ && t.I == 0x123) = true := by decide

/-- T100. -/
theorem test_ld_b : check (((fresh 0xF033).setReg 0 0xFF).setI 0xFFD)
    (fun t => t.byteAt 0xFFD == 2 && t.byteAt 0xFFE == 5 && t.byteAt 0xFFF == 5) = true := by decide

/-- T101. -/
theorem test_ld_b_out_of_range : check (((fresh 0xF033).setReg 0 0xFF).setI 0xFFE)
    (fun t => t.fault == some ⟨.memIndex, 4096⟩ && t.byteAt 0xFFE == 0 && t.byteAt 0xFFF == 0) =
      true := by decide

/-- T102. -/
theorem test_store_regs :
    check (((((fresh 0xF255).setReg 0 0x11).setReg 1 0x22).setReg 2 0x33).setI 0x400)
    (fun t => t.byteAt 0x400 == 0x11 && t.byteAt 0x401 == 0x22 && t.byteAt 0x402 == 0x33 &&
      t.byteAt 0x403 == 0 && t.I == 0x400) = true := by decide

/-- T105. -/
theorem test_store_regs_out_of_range : check ((fresh 0xF055).setI 0x1003)
    (fun t => t.fault == some ⟨.memIndex, 0x1003⟩ && t.pc == 0x202) = true := by decide

/-- T107. -/
theorem test_load_regs :
    check ((((fresh 0xF265).storeBytes 0x300 [2, 3, 4]).setReg 3 0x99).setI 0x300)
    (fun t => t.reg 0 == 2 && t.reg 1 == 3 && t.reg 2 == 4 && t.reg 3 == 0x99 && t.I == 0x300) =
      true := by decide

/-- T109. -/
theorem test_load_regs_out_of_range : check ((fresh 0xFF65).setI 0xFF1)
    (fun t => t.fault == some ⟨.memIndex, 4096⟩ && t.reg 0 == 0) = true := by decide

/-! ## Display -/

/-- T120. -/
theorem test_drw_wraps :
    check ((((fresh 0xD012).storeBytes 0x20E [0xC0, 0x80]).setI 0x20E).setReg 0 0x3F |>.setReg 1 0x1F)
    (fun t => decide (t.fb = screen [31, 2016, 2047]) && t.reg 15 == 0 && t.notify && t.redrawPending) =
      true := by decide

/-- T122. -/
theorem test_drw_collides :
    check (((((fresh 0xD012).storeBytes 0x20E [0xC0, 0x80]).setI 0x20E).setReg 1 0x1F).setFb
      (screen [31, 2016, 2047]))
    (fun t => decide (t.fb = screen [0, 63, 2016, 2047]) && t.reg 15 == 1 && t.notify) = true := by
  decide

/-- T131, T132. -/
theorem test_cls : check (fresh 0x00E0) (fun t => !t.notify && !t.redrawPending) = true ∧
    check (((fresh 0x00E0).setFb (screen [2047])).setReg 15 1)
      (fun t => decide (t.fb = Framebuffer.blank) && t.notify && t.redrawPending && t.reg 15 == 1) =
        true := by decide

/-! ## Keys, timers and the other agents -/

/-- T142, T143. -/
theorem test_skp : check { (fresh 0xE29E).setReg 2 7 with queue := [⟨7, true⟩] }
      (fun t => t.keys[7] && t.pc == 0x204) = true ∧
    check ((fresh 0xE29E).setReg 2 16)
      (fun t => t.fault == some ⟨.keyIndex, 16⟩ && t.pc == 0x202) = true := by decide

/-- T145, T146. -/
theorem test_sknp : check (((fresh 0xE2A1).setReg 2 7).applyKey ⟨7, true⟩)
      (fun t => t.pc == 0x202 && t.fault.isNone) = true ∧
    check ((fresh 0xE2A1).setReg 2 0xFF) (fun t => t.fault == some ⟨.keyIndex, 0xFF⟩) = true := by
  decide

/-- T147. -/
theorem test_ld_vx_dt : check ((fresh 0xF107).setDT 6) (fun t => t.reg 1 == 6 && t.DT == 6) = true := by
  decide

/-- T148. -/
theorem test_ld_dt_vx : check ((fresh 0xF015).setReg 0 7) (fun t => t.DT == 7 && t.ST == 0) = true := by
  decide

/-- T149. -/
theorem test_ld_st_vx : check ((fresh 0xF018).setReg 0 0x1E)
    (fun t => t.ST == 0x1E && t.DT == 0) = true := by decide

/-- T153, T154. -/
theorem test_ld_vx_k : check (((fresh 0xF50A).applyKey ⟨9, true⟩).applyKey ⟨3, true⟩)
      (fun t => t.reg 5 == 3 && t.wait.isNone && t.pc == 0x202) = true ∧
    check (fresh 0xF00A) (fun t => t.wait == some 0 && t.pc == 0x202) = true := by decide

/-- T151, T152. -/
theorem test_tick : check { State.reset with schedule := [.tick] }
      (fun t => t.DT == 0 && t.ST == 0 && t.schedule.isEmpty) = true ∧
    check { (State.reset.setDT 255).setST 2 with schedule := [.tick] }
      (fun t => t.DT == 254 && t.ST == 1) = true := by decide

/-- T161, T133. -/
theorem test_key_event_and_ack : check { State.reset with schedule := [.keyEvent ⟨6, true⟩] }
      (fun t => t.queue == [⟨6, true⟩] && !t.keys[6]) = true ∧
    check { State.reset with redrawPending := true, schedule := [.redrawAck] }
      (fun t => !t.redrawPending) = true := by decide

/-- T170, T172. -/
theorem test_reset_and_load : check { (fresh 0x6A05).setFault .memIndex 9 with schedule := [.reset] }
      (fun t => decide (t = State.reset)) = true ∧
    check { State.reset with schedule := [.load [0x6A, 0x05, 0x7A, 0x10]] }
      (fun t => t.byteAt 0x200 == 0x6A && t.byteAt 0x203 == 0x10 && t.byteAt 0x204 == 0 &&
        t.pc == 0x200) = true := by decide

/-! ## Witnesses: every statement's hypotheses are met by a concrete state

The name says the statement; a statement with several clauses has one part for each, at a boundary
value. -/

theorem test_witness_DecodeOfEncodeGivesInstruction :
    (Instr.drw 15 0 15).wellFormed = true ∧ (Instr.jp 0xFFF).wellFormed = true := by decide

theorem test_witness_EncodeOfDecodeGivesWord_and_DecodeFollowsOpcodeMap :
    decodeWord 0xFF65 = .ok (.loadRegs 15) ∧ decodeWord 0x1000 = .ok (.jp 0) := by decide

theorem illegal_zero : ∀ i, decodeWord 0x0000 ≠ .ok i := by
  intro i h
  have : decodeWord 0x0000 = .error (.illegalWord 0x0000) := by decide
  rw [this] at h
  exact absurd h (by simp)

/-- An illegal word in the last place a fetch can reach, for a listed `Step` and an unlisted one. -/
theorem test_witness_IllegalWordsFault_and_NetProgramCounterChange_illegal :
    let s (l : List Transaction) : State := { State.reset with pc := 0xFFE, schedule := l }
    Ready (s []) ∧ Ready (s [.step, .tick]) ∧ (s []).pc.toNat ≤ 4094 ∧
      ∀ i, decodeWord (wordOfBytes ((s []).byteAt (s []).pc.toNat)
        ((s []).byteAt ((s []).pc.toNat + 1))) ≠ .ok i :=
  ⟨⟨rfl, rfl, rfl⟩, ⟨rfl, rfl, rfl⟩, by decide, illegal_zero⟩

theorem test_witness_StepRunsDecodedInstruction :
    let s (l : List Transaction) : State := { placed 0xFFE 0x6007 State.reset with schedule := l }
    Ready (s []) ∧ Ready (s [.step, .tick]) ∧ (s []).pc.toNat ≤ 4094 ∧
      decodeWord (wordOfBytes ((s []).byteAt (s []).pc.toNat)
        ((s []).byteAt ((s []).pc.toNat + 1))) = .ok (.ldImm 0 7) :=
  ⟨⟨rfl, rfl, rfl⟩, ⟨rfl, rfl, rfl⟩, by decide, by decide⟩

theorem test_witness_DrainAppliesLastEvent :
    let s (l : List Transaction) : State :=
      { State.reset with queue := [⟨3, true⟩, ⟨3, false⟩], schedule := l }
    Ready (s []) ∧ Ready (s [.step]) := ⟨⟨rfl, rfl, rfl⟩, rfl, rfl, rfl⟩

theorem test_witness_FetchOutOfRangeFaults :
    let s (l : List Transaction) : State := { State.reset with pc := 4095, schedule := l }
    Ready (s []) ∧ Ready (s [.step]) ∧ 4094 < (s []).pc.toNat :=
  ⟨⟨rfl, rfl, rfl⟩, ⟨rfl, rfl, rfl⟩, by decide⟩

theorem test_witness_HaltedStepChangesNothing :
    let s (l : List Transaction) : State :=
      { State.reset.setFault .keyIndex 255 with queue := [⟨1, true⟩], schedule := l }
    Dispatching (s []) ∧ Dispatching (s [.step, .tick]) ∧ (s []).fault = some ⟨.keyIndex, 255⟩ :=
  ⟨rfl, rfl, rfl⟩

/-- An empty queue, a press and a release, for a listed `Step` and an unlisted one. -/
theorem test_witness_KeyWaitConsumesOneEvent :
    let s (q : List KeyEvent) (l : List Transaction) : State :=
      { State.reset with wait := some 15, queue := q, schedule := l }
    (∀ q, Dispatching (s q []) ∧ Dispatching (s q [.step, .tick]) ∧ (s q []).fault = none ∧
      (s q []).wait = some 15) ∧ (s [] []).queue = [] ∧
      (s [⟨15, true⟩] []).queue = ⟨15, true⟩ :: [] ∧ (s [⟨0, false⟩] []).queue = ⟨0, false⟩ :: [] :=
  ⟨fun _ => ⟨rfl, rfl, rfl, rfl⟩, rfl, rfl, rfl⟩

/-- A jump, a return, a skip, a plain instruction and a key-wait, each fetched by a ready dispatcher. -/
theorem test_witness_NetProgramCounterChange :
    (∀ w, Ready (placed 0xFFE w State.reset) ∧ (placed 0xFFE w State.reset).pc.toNat ≤ 4094) ∧
    ([0x1FFF, 0x2FFF, 0xBFFF, 0x00EE, 0x3000, 0x6FFF, 0xFF0A] : List Word).all
      (fun w => (decodeWord (wordOfBytes ((placed 0xFFE w State.reset).byteAt 0xFFE)
        ((placed 0xFFE w State.reset).byteAt 0xFFF))).isOk) = true ∧
    decodeWord 0xFF0A = .ok (.ldVxK 15) ∧
    (∀ k : Index, (fetched (placed 0xFFE 0xFF0A State.reset)).keys[k] = false) ∧
    ∀ t, step (placed 0xFFE 0x1FFF State.reset) = .next t → t.fault = none := by
  refine ⟨fun w => ⟨⟨rfl, rfl, rfl⟩, Nat.le_refl 4094⟩, by decide, by decide, by decide,
    fun t h => ?_⟩
  have e : step (placed 0xFFE 0x1FFF State.reset) =
      .next ((fetched (placed 0xFFE 0x1FFF State.reset)).setPc 0xFFF) := rfl
  rw [e] at h
  injection h with h
  subst h
  rfl

theorem test_witness_FaultCommitsNothing :
    ∃ t, State.reset.fault = none ∧ exec .ret State.reset = .next t ∧ t.fault ≠ none :=
  ⟨_, rfl, rfl, by decide⟩

theorem test_witness_FaultsFollowTheTable : State.reset.fault = none ∧
    (State.reset.setFault .channelBroken 0).fault = some ⟨.channelBroken, 0⟩ := ⟨rfl, rfl⟩

/-- R109's numeric codes as the outputs show them. -/
theorem test_fault_outputs : check (fresh 0xFFFF)
      (fun t => t.halted && t.faultCause == some 1 && t.faultInfo == some 0xFFFF) = true ∧
    check { State.reset with schedule := [.channelFail] }
      (fun t => t.halted && t.faultCause == some 7 && t.faultInfo == some 0) = true ∧
    State.reset.faultCause = none ∧ check (fresh 0xF00A) (fun t => t.waiting && t.held) = true := by
  decide

theorem test_witness_FaultStaysUntilReset :
    let s : State := { State.reset.setFault .stackIndex 0 with boot := .running, schedule := [.tick] }
    s.fault = some ⟨.stackIndex, 0⟩ ∧ ¬ nextIs s .reset ∧ s.boot ≠ .fresh := by
  refine ⟨rfl, fun h => ?_, by decide⟩
  have h : Transaction.tick = Transaction.reset := h
  simp at h

/-- At the bounds of the invariant: a full stack and the largest `pc`. -/
theorem test_witness_EveryStepKeepsInvariant :
    let s : State := { State.reset with
      pc := 0x10FE, sp := 15, stack := State.reset.stack.set 15 4096
      fault := some ⟨.addrOverflow, 2 ^ 17 - 1⟩ }
    Inv s ∧ ∃ t, step s = .next t := by
  refine ⟨⟨⟨List.Pairwise.nil, fun c hc => absurd hc (by simp [State.reset])⟩, by decide, by decide,
    by decide, by decide, by decide, fun r hr => ?_⟩, _, rfl⟩
  injection hr with hr
  subst hr
  decide

theorem test_witness_ResetRestoresEveryCell :
    ∃ t, ({ State.reset with schedule := [.reset, .step] } : State).schedule = .reset :: [.step] ∧
      step { State.reset with schedule := [.reset, .step] } = .next t := ⟨_, rfl, rfl⟩

theorem test_witness_FlagRegisterWriters :
    ∃ t, exec (.ldImm 15 1) State.reset = .next t ∧ t.reg 15 ≠ State.reset.reg 15 :=
  ⟨_, rfl, by decide⟩

/-- A store by each of the two instructions, a load and a reset. -/
theorem test_witness_MemoryWriters :
    (∃ t, step (((fresh 0xF033).setReg 0 0xFF).setI 0xFFD) = .next t ∧
      t.byteAt 0xFFF ≠ (((fresh 0xF033).setReg 0 0xFF).setI 0xFFD).byteAt 0xFFF) ∧
    (∃ t, step (((fresh 0xF055).setReg 0 0xAB).setI 0xFFF) = .next t ∧
      t.byteAt 0xFFF ≠ (((fresh 0xF055).setReg 0 0xAB).setI 0xFFF).byteAt 0xFFF) ∧
    (∃ t, step { State.reset with schedule := [.load [0x6A]] } = .next t ∧
      t.byteAt 0x200 ≠ State.reset.byteAt 0x200) ∧
    ∃ t, step { fresh 0x6A05 with schedule := [.reset] } = .next t ∧
      t.byteAt 0x200 ≠ (fresh 0x6A05).byteAt 0x200 :=
  ⟨⟨_, rfl, by decide⟩, ⟨_, rfl, by decide⟩, ⟨_, rfl, by decide⟩, ⟨_, rfl, by decide⟩⟩

/-- A call from the last free entry, a return from the first. -/
theorem test_witness_StackWriters :
    (∃ t, step { fresh 0x2300 with sp := 14 } = .next t ∧ t.sp ≠ 14 ∧
      t.stack ≠ (fresh 0x2300).stack) ∧
    ∃ t, step { fresh 0x00EE with sp := 1 } = .next t ∧ t.sp ≠ 1 :=
  ⟨⟨_, rfl, by decide, by decide⟩, ⟨_, rfl, by decide⟩⟩

theorem test_witness_AddressRegisterWriters :
    ∃ t, step (fresh 0xA300) = .next t ∧ t.I ≠ (fresh 0xA300).I := ⟨_, rfl, by decide⟩

theorem test_witness_TimerWriters :
    (∃ t, step ((fresh 0xF015).setReg 0 7) = .next t ∧ t.DT ≠ (fresh 0xF015).DT) ∧
    ∃ t, step ((fresh 0xF018).setReg 0 7) = .next t ∧ t.ST ≠ (fresh 0xF018).ST :=
  ⟨⟨_, rfl, by decide⟩, ⟨_, rfl, by decide⟩⟩

/-- An executed instruction, and a step that executes none. -/
theorem test_witness_NotificationRule :
    Executes (fresh 0x00E0) .cls ∧
    (∀ i, ¬ Executes { State.reset with notify := true, schedule := [.tick] } i) ∧
    ∃ t, step { State.reset with notify := true, schedule := [.tick] } = .next t ∧
      t.notify = true := by
  refine ⟨⟨⟨rfl, rfl, rfl⟩, by decide, by decide⟩, ?_, _, rfl, rfl⟩
  rintro i ⟨⟨h, -⟩, -⟩
  have h : Transaction.tick = Transaction.step := h
  simp at h

/-- One state for each scheduled transaction of the other agents. -/
theorem test_witness_other_agents :
    let s (t : Transaction) : State := { State.reset with schedule := [t] }
    (s .tick).schedule = .tick :: [] ∧
    (s (.keyEvent ⟨15, true⟩)).schedule = .keyEvent ⟨15, true⟩ :: [] ∧
    (s (.fbRead 2047)).schedule = .fbRead 2047 :: [] ∧
    (s .redrawAck).schedule = .redrawAck :: [] ∧
    (s .channelFail).schedule = .channelFail :: [] := ⟨rfl, rfl, rfl, rfl, rfl⟩

theorem test_witness_TicksAccumulate :
    ({ State.reset with schedule := [.tick, .tick, .step] } : State).schedule =
      List.replicate 2 .tick ++ [.step] := rfl

/-- A self-jump: a `Step` and a `Tick` in turn leave it as it is, a fair run in which no step writes a
timer. -/
def looping : State := { placed 0x200 0x1200 State.reset with boot := .running }

def inTurn : Interleaving := fun n => if n % 2 = 0 then .step else .tick

theorem test_witness_TicksAccumulate_and_EveryInterleavingRuns :
    FairRun inTurn (fun _ => looping) ∧
      ∀ m, 0 ≤ m → inTurn m = .step → looping.DT = looping.DT ∧ looping.ST = looping.ST := by
  refine ⟨⟨fun n => ?_, fun n _ => ⟨2 * n, by omega, ?_⟩, fun n _ => ⟨2 * n + 1, by omega, ?_⟩⟩,
    fun _ _ _ => ⟨rfl, rfl⟩⟩
  · unfold inTurn
    split
    · rfl
    · rfl
  · simp [inTurn]
  · simp [inTurn]

theorem test_witness_KeyEventAppends_removal :
    ∃ t, step { fresh 0x6A05 with queue := [⟨3, true⟩] } = .next t ∧
      t.queue ≠ ({ fresh 0x6A05 with queue := [⟨3, true⟩] } : State).queue := ⟨_, rfl, by decide⟩

theorem test_witness_DisplaySurface :
    ∃ t, step ((fresh 0x00E0).setFb (screen [2047])) = .next t ∧
      t.fb.cell 2047 ≠ ((fresh 0x00E0).setFb (screen [2047])).fb.cell 2047 := ⟨_, rfl, by decide⟩

/-- Accepted and not accepted. -/
theorem test_witness_LoadCopiesImage :
    let s : State := { State.reset with schedule := [.load [0x6A]] }
    let t : State := { s with boot := .running }
    (s.schedule = .load [0x6A] :: [] ∧ s.boot = .fresh) ∧
      t.schedule = .load [0x6A] :: [] ∧ t.boot ≠ .fresh := ⟨⟨rfl, rfl⟩, rfl, by decide⟩

/-- A word of each form whose decoding the instruction statements state. -/
theorem test_witness_decoding_clauses :
    (0x1FFF : Word) &&& 0xF000 = 0x1000 ∧ (0x2FFF : Word) &&& 0xF000 = 0x2000 ∧
    (0x3FFF : Word) &&& 0xF000 = 0x3000 ∧ (0x4FFF : Word) &&& 0xF000 = 0x4000 ∧
    (0x5FF0 : Word) &&& 0xF00F = 0x5000 ∧ (0x9FF0 : Word) &&& 0xF00F = 0x9000 ∧
    ((0x5FFF : Word) &&& 0xF000 = 0x5000 ∧ (0x5FFF : Word) &&& 0x000F ≠ 0) ∧
    (0xBFFF : Word) &&& 0xF000 = 0xB000 ∧ (0x6FFF : Word) &&& 0xF000 = 0x6000 ∧
    (0x8FF0 : Word) &&& 0xF00F = 0x8000 ∧ (0x8FF3 : Word) &&& 0xF00F = 0x8003 ∧
    (0xAFFF : Word) &&& 0xF000 = 0xA000 ∧ (0xFF07 : Word) &&& 0xF0FF = 0xF007 ∧
    (0xFF15 : Word) &&& 0xF0FF = 0xF015 ∧ (0xFF18 : Word) &&& 0xF0FF = 0xF018 := by decide

/-- The last free entry, and none free. -/
theorem test_witness_CallPushesReturnAddress :
    let s (n : Word) : State := { State.reset with sp := n }
    (15 : Index).val = (s 14).sp.toNat + 1 ∧ 14 < (s 15).sp.toNat := by decide

/-- One call outstanding, fifteen, none, and an `sp` outside the stack. -/
theorem test_witness_ReturnPopsAddress :
    let s (n : Word) : State := { State.reset with sp := n }
    ((1 : Index) ≠ 0 ∧ (1 : Index).val = (s 1).sp.toNat) ∧ (15 : Index).val = (s 15).sp.toNat ∧
      (s 0).sp.toNat = 0 ∧ 15 < (s 16).sp.toNat := by decide

theorem test_witness_ReturnUndoesCall :
    let s : State := { State.reset with sp := 14 }
    ∃ t, s.sp.toNat ≤ 14 ∧ exec (.call 0xFFF) s = .next t ∧ t.sp = t.sp ∧ t.stack = t.stack :=
  ⟨_, by decide, rfl, rfl, rfl⟩

theorem test_witness_SelfJumpIsFixedPoint :
    let s : State := { placed 0xFFE 0x1FFE State.reset with
      schedule := [.step, .tick, .keyEvent ⟨15, true⟩, .fbRead 0, .redrawAck] }
    Ready s ∧ s.pc.toNat ≤ 4094 ∧
      (s.byteAt s.pc.toNat).toNat * 256 + (s.byteAt (s.pc.toNat + 1)).toNat = 0x1000 + s.pc.toNat ∧
      ∀ t ∈ s.schedule, t.isAgentStep = true :=
  ⟨⟨rfl, rfl, rfl⟩, by decide, by decide, by decide⟩

/-- `x` other than F, with and without a carry, a borrow and equal operands. -/
theorem test_witness_ArithmeticWithFlag :
    let s := (State.reset.setReg 0 0xFF).setReg 1 1
    (255 = (s.reg 0).toNat ∧ 1 = (s.reg 1).toNat ∧ (0 : Index) ≠ 15 ∧ 255 < 255 + 1 ∧ 1 < 255) ∧
      0 = (s.reg 2).toNat := by decide

theorem test_witness_ShiftsInPlace : (14 : Index) ≠ 15 := by decide

theorem test_witness_RandomByteIsMasked : (0x7F : Byte).getLsbD 7 = false := by decide

/-- The largest sum that fits, and the smallest that does not. -/
theorem test_witness_AddToAddressRegister :
    let s (i : Word) := (State.reset.setI i).setReg 0 0xFF
    (s 0xFF00).I.toNat + ((s 0xFF00).reg 0).toNat ≤ 0xFFFF ∧
      0xFFFF < (s 0xFF01).I.toNat + ((s 0xFF01).reg 0).toNat := by decide

/-- Glyph 15 in a state that meets the invariant, and 16. -/
theorem test_witness_PointAtGlyph :
    let s (b : Byte) := (placed 0x200 0xF029 State.reset).setReg 0 b
    ((s 15).reg 0).toNat = (15 : Index).val ∧ Inv (s 15) ∧ 15 < ((s 16).reg 0).toNat := by
  refine ⟨by decide, ⟨by decide, by decide, by decide, by decide, by decide, by decide,
    fun r hr => ?_⟩, by decide⟩
  have hn : (none : Option FaultRecord) = some r := hr
  exact absurd hn (by simp)

/-- The last address inside, and the first outside, for each transfer. -/
theorem test_witness_transfers :
    let s (i : Word) := State.reset.setI i
    ((s 4093).I.toNat + 2 ≤ 4095 ∧ 4095 < (s 4094).I.toNat + 2) ∧
    ((s 4080).I.toNat + (15 : Index).val ≤ 4095 ∧ 4095 < (s 4081).I.toNat + (15 : Index).val) ∧
    ((s 4095).I.toNat + (0 : Index).val ≤ 4095 ∧ 4095 < (s 4096).I.toNat + (0 : Index).val) ∧
    (0 : Index) ≤ 15 ∧ (15 : Index) ≤ 15 := by decide

theorem test_witness_StoreThenLoadRestoresRegisters :
    ∃ t, (State.reset.setI 4080).I.toNat + (15 : Index).val ≤ 4095 ∧
      exec (.storeRegs 15) (State.reset.setI 4080) = .next t ∧
      (t.setReg 0 0).I = t.I ∧ ∀ a, (t.setReg 0 0).byteAt a = t.byteAt a :=
  ⟨_, by decide, rfl, rfl, fun _ => rfl⟩

theorem test_witness_StoreIsSeenByNextFetch :
    let s : State := { (State.reset.setReg 0 0x6A).setReg 1 0x05 with I := 4094, pc := 4094 }
    Ready s ∧ 1 ≤ (1 : Index).val ∧ s.I = s.pc ∧ s.pc.toNat + (1 : Index).val ≤ 4095 ∧
      (∃ t, exec (.storeRegs 1) s = .next t) ∧
      decodeWord (wordOfBytes (s.reg 0) (s.reg 1)) = .ok (.ldImm 10 5) :=
  ⟨⟨rfl, rfl, rfl⟩, by decide, rfl, by decide, ⟨_, rfl⟩, by decide⟩

/-- A cell set, and none. -/
theorem test_witness_ClearScreen :
    (∃ j < 2048, (screen [2047]).cell j = true) ∧ ∀ j < 2048, State.reset.fb.cell j = false :=
  ⟨⟨2047, by decide, by decide⟩, fun j _ => by
    simp only [Framebuffer.cell, State.reset]
    split <;> simp⟩

/-- No row with `I` outside memory, and fifteen rows that end at 4095. -/
theorem test_witness_DrawXorsSprite_and_DrawTwiceRestores :
    (0 ≤ 15 ∧ 0 = 0) ∧ 15 ≤ 15 ∧ (State.reset.setI 4081).I.toNat + 15 - 1 ≤ 4095 ∧
      (14 : Index) ≠ 15 := by decide

theorem test_witness_DrawOutOfRangeFaults :
    0 < 15 ∧ 4095 < (State.reset.setI 4082).I.toNat + 15 - 1 := by decide

/-- Key 15, and 16. -/
theorem test_witness_SkipOnKey :
    ((State.reset.setReg 2 15).reg 2).toNat = (15 : Index).val ∧
      15 < ((State.reset.setReg 2 16).reg 2).toNat := by decide

/-- Only key 15 held, and none. -/
theorem test_witness_WaitForKey :
    ((State.reset.applyKey ⟨15, true⟩).keys[15] = true ∧
      ∀ j : Index, j < 15 → (State.reset.applyKey ⟨15, true⟩).keys[j] = false) ∧
    ∀ k : Index, State.reset.keys[k] = false := by decide

theorem test_witness_SoundTimerAndLatchAreUnread :
    ∃ t, step ((fresh 0xF018).setReg 0 7) = .next t := ⟨_, rfl⟩

end Sys2Proof.Tests
end

/-! # The dispatcher's cycle: the drain and the halted step

The claims of spec/40_cycle.md about the queue and the key flags: a halted step touches nothing (R62), and a
ready step leaves the queue empty and the key flags as the drain made them (R58), because neither the fetch
nor an instruction writes either. -/

namespace Sys2Proof.Machine

/-! ## The cells that phases 2 and 3 leave alone -/

/-- The values of the five cells that no fetch and no instruction writes: the queue and the key flags are
phase 1's (R58), the font offset table is constant (R19), the boot cell and the schedule belong to the step
around the phases. -/
structure Surroundings where
  queue : List KeyEvent
  keys : Vector Bool 16
  fontOffset : Vector Word 16
  boot : Boot
  schedule : List Transaction

def State.surroundings (s : State) : Surroundings :=
  ⟨s.queue, s.keys, s.fontOffset, s.boot, s.schedule⟩


@[simp] theorem surroundings_skipIf (s : State) (c : Bool) :
    (s.skipIf c).surroundings = s.surroundings := by
  rw [State.skipIf_eq]; rfl

@[simp] theorem surroundings_notifyIf (s : State) (c : Bool) :
    (s.notifyIf c).surroundings = s.surroundings := by
  rw [State.notifyIf_eq]; rfl

/-- Every instruction answers a next state, on its faulting branches too (R107), and leaves its
surroundings alone. The case split is the one of `exec`, then that of the instruction's own check. -/
theorem exec_surroundings (i : Instr) (s : State) :
    ∃ t, exec i s = .next t ∧ t.surroundings = s.surroundings := by
  cases i with
  | cls => exact ⟨_, rfl, surroundings_notifyIf _ _⟩
  | seImm | sneImm | seReg | sneReg => exact ⟨_, rfl, surroundings_skipIf s _⟩
  | ret =>
    simp only [exec, execRet]
    split
    · exact ⟨_, rfl, rfl⟩
    · split <;> exact ⟨_, rfl, rfl⟩
  | skp | sknp =>
    simp only [exec, execSkp, execSknp]
    split
    · exact ⟨_, rfl, surroundings_skipIf s _⟩
    · exact ⟨_, rfl, rfl⟩
  | drw =>
    simp only [exec, execDrw]
    split
    · exact ⟨_, rfl, rfl⟩
    · exact ⟨_, rfl, surroundings_notifyIf _ _⟩
  | call | ldVxK | addI | ldF | ldB | storeRegs | loadRegs =>
    simp only [exec, execCall, execLdVxK, execAddI, execLdF, execLdB, execStoreRegs, execLoadRegs]
    split <;> exact ⟨_, rfl, rfl⟩
  | _ => exact ⟨_, rfl, rfl⟩

/-- Phases 2 and 3 answer a next state and leave their surroundings alone, whatever is fetched. -/
theorem fetchAndExecute_surroundings (s : State) :
    ∃ t, fetchAndExecute s = .next t ∧ t.surroundings = s.surroundings := by
  rw [fetchAndExecute_eq]
  split
  · exact ⟨_, rfl, rfl⟩
  · split
    · next i _ => exact exec_surroundings i s.advance
    · exact ⟨_, rfl, rfl⟩

/-! ## The key flags after the drain -/

theorem keysAfter_concat (keys : Vector Bool 16) (events : List KeyEvent) (e : KeyEvent) :
    keysAfter keys (events ++ [e]) = (keysAfter keys events).set e.code e.pressed := by
  simp [keysAfter]

/-- The last event of a key decides its flag; with none the flag stays (R58). By induction from the
queue's end, since the youngest event is applied last. -/
theorem keysAfter_getElem (keys : Vector Bool 16) (events : List KeyEvent) (k : Index) :
    (keysAfter keys events)[k] =
      (events.reverse.find? fun e => decide (e.code = k)).elim keys[k] KeyEvent.pressed := by
  induction events using List.reverseRecOn with
  | nil => rfl
  | append_singleton events e ih =>
    rw [keysAfter_concat, List.reverse_concat, List.find?_cons]
    by_cases h : e.code = k
    · subst h; simp
    · have hne : e.code.val ≠ k.val := fun hv => h (Fin.ext hv)
      simpa [h, Vector.getElem_set_ne, hne] using ih

/-! ## The obligations -/

/-- Settles O9: the halted step is `takeNext` and then `beginStep`, whose frames compose. -/
theorem haltedStepChangesNothing : Obligations.HaltedStepChangesNothing := by
  intro s r hdispatch hfault
  refine ⟨s.takeNext.beginStep, ?_, rfl, rfl, ?_⟩
  · rw [step_of_dispatching hdispatch, dispatcherStep_halted (s := s.takeNext) hfault]
  · refine ((onlyChanges_takeNext s).trans (onlyChanges_beginStep s.takeNext)).mono ?_
    rintro c (rfl | rfl | rfl) <;> simp

/-- Settles O7: the drain empties the queue and applies its events in order, and the phases after it leave
the queue and the key flags alone. -/
theorem drainAppliesLastEvent : Obligations.DrainAppliesLastEvent := by
  intro s hready
  obtain ⟨t, hstep, hsame⟩ := fetchAndExecute_surroundings s.takeNext.beginStep.drain
  rw [← step_of_ready hready] at hstep
  rw [drain_eq] at hsame
  have hqueue : t.queue = [] := congrArg Surroundings.queue hsame
  have hkeys : t.keys = keysAfter s.keys s.queue := congrArg Surroundings.keys hsame
  refine ⟨t, hstep, hqueue, fun k => ?_⟩
  rw [hkeys, keysAfter_getElem]
  cases s.queue.reverse.find? fun e => decide (e.code = k) <;> rfl

end Sys2Proof.Machine

/-! # Control transfer: the jumps and the skips on an immediate

The claims of spec/41_flow.md about JP (R65), SE and SNE with an immediate (R67, R68) and JP V0 (R71). Each of
these rows fixes the top digit alone, so the opcode mask decides the row; the execute phases are one write of
`pc`, whose frame is `onlyChanges_setPc`. -/

namespace Sys2Proof

/-! ## The rows that fix only the top digit (R50) -/

/-- A word under the mask 0xF000 shows its top digit. -/
theorem hiField_of_masked {op : Word} {hi : BitVec 4} (h : op &&& 0xF000 = encodeNNN hi 0) :
    hiField op = hi := by
  have hfields : encodeNNN (hiField op) 0 = encodeNNN hi 0 := (and_maskNNN op).symm.trans h
  simpa using congrArg hiField hfields

theorem decodeWord_of_hi_jp {op : Word} (h : hiField op = 0x1) :
    decodeWord op = .ok (.jp (nnnField op)) := by
  simp [decodeWord, h]

theorem decodeWord_of_hi_seImm {op : Word} (h : hiField op = 0x3) :
    decodeWord op = .ok (.seImm (xField op) (kkField op)) := by
  simp [decodeWord, h]

theorem decodeWord_of_hi_sneImm {op : Word} (h : hiField op = 0x4) :
    decodeWord op = .ok (.sneImm (xField op) (kkField op)) := by
  simp [decodeWord, h]

theorem decodeWord_of_hi_jpV0 {op : Word} (h : hiField op = 0xB) :
    decodeWord op = .ok (.jpV0 (nnnField op)) := by
  simp [decodeWord, h]

end Sys2Proof

namespace Sys2Proof.Machine

/-! ## The new program counter -/

/-- The largest sum is 0xFFF + 0xFF, which 16 bits hold (R71). -/
theorem zext16_add_byte_toNat (nnn : BitVec 12) (b : Byte) :
    (zext16 nnn + b.setWidth 16).toNat = nnn.toNat + b.toNat := by
  have hnnn := nnn.isLt
  have hb := b.isLt
  rw [BitVec.toNat_add, zext16_toNat, BitVec.toNat_setWidth]
  omega

theorem skipIf_beq_pc (s : State) (a b : Byte) :
    (s.skipIf (a == b)).pc = if a = b then s.pc + 2 else s.pc := by
  simp [State.skipIf_eq]

theorem skipIf_bne_pc (s : State) (a b : Byte) :
    (s.skipIf (a != b)).pc = if a = b then s.pc else s.pc + 2 := by
  by_cases h : a = b <;> simp [State.skipIf_eq, h]

/-! ## The obligations -/

/-- Settles O31: the target is the zero-extended address field. -/
theorem jumpSetsProgramCounter : Obligations.JumpSetsProgramCounter :=
  ⟨fun _ hop => decodeWord_of_hi_jp (hiField_of_masked hop),
    fun nnn s => ⟨s.setPc (zext16 nnn), rfl, zext16_toNat nnn, onlyChanges_setPc s _⟩⟩

/-- Settles O35: both skips are `skipIf` on the comparison of `V[x]` with `kk`. -/
theorem skipOnImmediate : Obligations.SkipOnImmediate := by
  refine ⟨fun _ hop => decodeWord_of_hi_seImm (hiField_of_masked hop),
    fun _ hop => decodeWord_of_hi_sneImm (hiField_of_masked hop), fun x kk s => ⟨?_, ?_⟩⟩
  · exact ⟨s.skipIf (s.reg x == kk), rfl, skipIf_beq_pc s _ kk, onlyChanges_skipIf s _⟩
  · exact ⟨s.skipIf (s.reg x != kk), rfl, skipIf_bne_pc s _ kk, onlyChanges_skipIf s _⟩

/-- Settles O37: the target is a 16-bit sum that cannot wrap. -/
theorem jumpWithOffset : Obligations.JumpWithOffset :=
  ⟨fun _ hop => decodeWord_of_hi_jpV0 (hiField_of_masked hop),
    fun nnn s => ⟨s.setPc (zext16 nnn + (s.reg 0).setWidth 16), rfl,
      zext16_add_byte_toNat nnn (s.reg 0), onlyChanges_setPc s _⟩⟩

end Sys2Proof.Machine

/-! # The address register: its immediate load

The claim of spec/43_index_memory.md about LD I,nnn (R87). The row fixes the top digit alone, and the execute
phase is one write of `I`, whose frame is `onlyChanges_setI`. -/

namespace Sys2Proof

theorem decodeWord_of_hi_ldI {op : Word} (h : hiField op = 0xA) :
    decodeWord op = .ok (.ldI (nnnField op)) := by
  simp [decodeWord, h]

end Sys2Proof

namespace Sys2Proof.Machine

/-- Settles O44: the new `I` is the zero-extended address field. -/
theorem loadAddressRegister : Obligations.LoadAddressRegister :=
  ⟨fun _ hop => decodeWord_of_hi_ldI (hiField_of_masked hop),
    fun nnn s => ⟨s.setI (zext16 nnn), rfl, zext16_toNat nnn, onlyChanges_setI s _⟩⟩

end Sys2Proof.Machine

/-! # The key-event queue

The claim of spec/60_exceptions.md about KeyEvent (R115): events enter the queue at its end, by their own
transaction only, and a dispatcher step takes them from its front: none when halted (R62), one in the
key-wait (R61), all otherwise (R58). -/

namespace Sys2Proof.Machine

/-! ## What the dispatcher takes from the queue -/

/-- The key-wait step consumes the oldest event, press or release (R61, D21). -/
theorem waitStep_queue (x : Index) (s : State) : (waitStep x s).queue = s.queue.tail := by
  unfold waitStep
  split
  · next hq => simp [hq]
  · next e rest hq => split <;> simp [hq]

/-- A dispatcher step drops events from the front of the queue and does nothing else to it. -/
theorem dispatcherStep_drops_queue {s t : State} (h : dispatcherStep s = .next t) :
    ∃ n, t.queue = s.queue.drop n := by
  cases hf : s.fault with
  | some r =>
    rw [dispatcherStep_halted hf] at h
    cases h
    exact ⟨0, rfl⟩
  | none =>
    cases hw : s.wait with
    | some x =>
      rw [dispatcherStep_waiting hf hw] at h
      cases h
      exact ⟨1, by rw [waitStep_queue, List.drop_one]; rfl⟩
    | none =>
      obtain ⟨u, hu, hsame⟩ := fetchAndExecute_surroundings s.beginStep.drain
      rw [dispatcherStep_running hf hw, hu] at h
      cases h
      rw [drain_eq] at hsame
      have hqueue : t.queue = [] := congrArg Surroundings.queue hsame
      exact ⟨s.queue.length, by rw [hqueue, List.drop_length]⟩

/-! ## The transactions that leave the queue alone -/

@[simp] theorem load_queue (s : State) (image : List Byte) : (s.load image).queue = s.queue := by
  by_cases h : s.boot = .fresh
  · rw [load_fresh h]; rfl
  · rw [load_not_fresh h]

@[simp] theorem channelFail_queue (s : State) : s.channelFail.queue = s.queue := by
  rw [channelFail_eq]
  split <;> rfl

/-- Only Reset, a key event and a dispatcher step touch the queue. -/
theorem transact_changes_queue {tr : Transaction} {s t : State} (h : transact tr s = .next t)
    (hne : t.queue ≠ s.queue) : tr = .reset ∨ (∃ e, tr = .keyEvent e) ∨ tr = .step := by
  cases tr with
  | reset => exact .inl rfl
  | keyEvent e => exact .inr (.inl ⟨e, rfl⟩)
  | step => exact .inr (.inr rfl)
  | load image => cases h; exact absurd (load_queue s image) hne
  | channelFail => cases h; exact absurd (channelFail_queue s) hne
  | tick | fbRead | redrawAck => cases h; exact absurd rfl hne

/-! ## The obligation -/

/-- Settles O27: a key event is `enqueue` after `takeNext`, whose frames compose; of the transactions that
touch the queue, the one left beside Reset and KeyEvent is the dispatcher's, which drops from the front. -/
theorem keyEventAppends : Obligations.KeyEventAppends := by
  constructor
  · intro s e rest hsched
    refine ⟨s.takeNext.enqueue e, step_of_nextIs (State.nextUp_cons hsched), rfl,
      congrArg List.tail hsched, ?_⟩
    refine ((onlyChanges_takeNext s).trans (onlyChanges_setQueue s.takeNext _)).mono ?_
    rintro c (rfl | rfl) <;> simp
  · intro s t hstep hne
    obtain hreset | hkey | hdisp := transact_changes_queue ((step_eq s).symm.trans hstep) hne
    · exact .inl hreset
    · exact .inr (.inl hkey)
    · rw [step_of_dispatching hdisp] at hstep
      exact .inr (.inr ⟨hdisp, dispatcherStep_drops_queue (s := s.takeNext) hstep⟩)

end Sys2Proof.Machine

/-! # Every instruction is its fault or its effect

The execute phase in one equation: where the table of spec/60_exceptions.md R109 names a fault the record is
written and nothing else, and elsewhere the instruction's `effect` happens. The cells an effect can change
are `writes`. The claims about single instructions and about who writes what follow from these. -/

namespace Sys2Proof.Machine

/-! ## The effect of an instruction -/

/-- What an instruction does where no fault is due, in the model's own operations. An array index is taken
modulo 16, which matters only where the instruction faults. -/
def effect : Instr → State → State
  | .cls, s => (s.setFb Framebuffer.blank).notifyIf (s.fb != Framebuffer.blank)
  | .ret, s => s.pop (Fin.ofNat 16 s.sp.toNat)
  | .jp nnn, s => s.setPc (zext16 nnn)
  | .call nnn, s => (s.push (Fin.ofNat 16 (s.sp.toNat + 1)) s.pc).setPc (zext16 nnn)
  | .seImm x kk, s => s.skipIf (s.reg x == kk)
  | .sneImm x kk, s => s.skipIf (s.reg x != kk)
  | .seReg x y, s => s.skipIf (s.reg x == s.reg y)
  | .sneReg x y, s => s.skipIf (s.reg x != s.reg y)
  | .ldImm x kk, s => s.setReg x kk
  | .addImm x kk, s => s.setReg x (aluAdd (s.reg x) kk).result
  | .ldReg x y, s => s.setReg x (s.reg y)
  | .orReg x y, s => s.setReg x (s.reg x ||| s.reg y)
  | .andReg x y, s => s.setReg x (aluAnd Config.aluAndMode (s.reg x) (s.reg y))
  | .xorReg x y, s => s.setReg x (s.reg x ^^^ s.reg y)
  | .addReg x y, s => s.setFlagThenReg x (aluAdd (s.reg x) (s.reg y))
  | .subReg x y, s => s.setFlagThenReg x (aluSub (s.reg x) (s.reg y))
  | .shr x _, s => s.setFlagThenReg x (aluShr (s.reg x))
  | .subnReg x y, s => s.setFlagThenReg x (aluSub (s.reg y) (s.reg x))
  | .shl x _, s => s.setFlagThenReg x (aluShl (s.reg x))
  | .ldI nnn, s => s.setI (zext16 nnn)
  | .jpV0 nnn, s => s.setPc (zext16 nnn + (s.reg 0).setWidth 16)
  | .rnd x kk, s => (s.setReg x (Config.rand s.draws &&& kk)).countDraw
  | .drw x y n, s =>
    let c := s.drawSprite (s.reg x) (s.reg y) s.I.toNat n
    ((s.setFb c.fb).setReg flagIndex (flagByte c.collision)).notifyIf c.changed
  | .skp x, s => s.skipIf s.keys[Fin.ofNat 16 (s.reg x).toNat]
  | .sknp x, s => s.skipIf (!s.keys[Fin.ofNat 16 (s.reg x).toNat])
  | .ldVxDT x, s => s.setReg x s.DT
  | .ldDTVx x, s => s.setDT (s.reg x)
  | .ldSTVx x, s => s.setST (s.reg x)
  | .ldVxK x, s =>
    match s.lowestHeld with
    | some k => s.setReg x (BitVec.ofNat 8 k.val)
    | none => s.setWait (some x)
  | .addI x, s => s.setI (BitVec.ofNat 16 (s.I.toNat + (s.reg x).toNat))
  | .ldF x, s => s.setI s.fontOffset[Fin.ofNat 16 (s.reg x).toNat]
  | .ldB x, s => s.storeBytes s.I.toNat (bcdDigits (s.reg x))
  | .storeRegs x, s => s.storeBytes s.I.toNat (s.regBlock x)
  | .loadRegs x, s => s.loadBlock x

/-- An index that a number names is that number modulo 16. -/
theorem eq_finOfNat {n : Nat} {k : Index} (h : n = k.val) : k = Fin.ofNat 16 n :=
  Fin.ext (by simp only [Fin.val_ofNat]; omega)

/-- The execute phase: the fault of R109's table and nothing else, or the effect. The case split is the one of
`exec`, then that of the instruction's own check. -/
theorem exec_eq (i : Instr) (s : State) :
    exec i s = .next (match faultOf i s with
      | some r => s.setFault r.cause r.info
      | none => effect i s) := by
  cases i with
  | ret =>
    have hz : s.sp = 0 ↔ s.sp.toNat = 0 := by rw [← BitVec.toNat_inj]; rfl
    simp only [exec, execRet, faultOf, effect, hz]
    split
    · next h => simp [h]
    · split
      · next j hj =>
        rw [stackIndex_eq_some] at hj
        rw [if_neg (by omega), ← eq_finOfNat hj]
      · next hj => rw [stackIndex_eq_none] at hj; simp [hj]
  | call =>
    simp only [exec, execCall, faultOf, effect]
    split
    · next j hj =>
      rw [stackIndex_eq_some] at hj
      rw [if_neg (by omega), ← eq_finOfNat hj]
    · next hj => rw [stackIndex_eq_none] at hj; simp [hj]
  | skp | sknp | ldF =>
    simp only [exec, execSkp, execSknp, execLdF, faultOf, effect]
    split
    · next k hk =>
      rw [indexOf_eq_some] at hk
      obtain rfl := eq_finOfNat hk
      rw [if_neg (by omega)]
    · next hk => rw [indexOf_eq_none] at hk; simp [hk]
  | addI =>
    simp only [exec, execAddI, faultOf, effect]
    split <;> simp_all
  | ldB | storeRegs | loadRegs | drw =>
    simp only [exec, execLdB, execStoreRegs, execLoadRegs, execDrw, faultOf, effect]
    split
    · next h =>
      obtain ⟨_, _, rfl⟩ := transferFault_eq_some.1 h
      rw [if_pos (by omega)]; rfl
    · next h =>
      rw [transferFault_eq_none] at h
      rw [if_neg (by omega)]
  | ldVxK =>
    simp only [exec, execLdVxK, faultOf, effect]
    split <;> simp_all
  | _ => rfl

theorem exec_of_fault {i : Instr} {s : State} {r : FaultRecord} (h : faultOf i s = some r) :
    exec i s = .next (s.setFault r.cause r.info) := by
  rw [exec_eq, h]

theorem exec_of_no_fault {i : Instr} {s : State} (h : faultOf i s = none) :
    exec i s = .next (effect i s) := by
  rw [exec_eq, h]

/-- Which of the two an execute phase was. -/
theorem exec_cases {i : Instr} {s t : State} (h : exec i s = .next t) :
    (∃ r, faultOf i s = some r ∧ t = s.setFault r.cause r.info) ∨
      (faultOf i s = none ∧ t = effect i s) := by
  rw [exec_eq] at h
  cases h
  cases faultOf i s with
  | some r => exact .inl ⟨r, rfl, rfl⟩
  | none => exact .inr ⟨rfl, rfl⟩

/-! ## The cells an effect changes -/

@[simp] theorem mem_bytesAt {c : Cell} {base len : Nat} :
    c ∈ bytesAt base len ↔ ∃ k < len, c = .byte (base + k) :=
  Iff.rfl

/-- The cells that the effect of an instruction can change, as a function of the state it starts from. -/
def writes : Instr → State → Set Cell
  | .cls, _ => {.notify, .redrawPending} ∪ Set.range Cell.pixel
  | .ret, _ => {.pc, .sp}
  | .call _, s => {.pc, .sp, .stack (Fin.ofNat 16 (s.sp.toNat + 1))}
  | .jp _, _ | .jpV0 _, _ | .seImm _ _, _ | .sneImm _ _, _ | .seReg _ _, _ | .sneReg _ _, _
  | .skp _, _ | .sknp _, _ => {.pc}
  | .ldImm x _, _ | .addImm x _, _ | .ldReg x _, _ | .orReg x _, _ | .andReg x _, _
  | .xorReg x _, _ | .ldVxDT x, _ => {.V x}
  | .addReg x _, _ | .subReg x _, _ | .shr x _, _ | .subnReg x _, _ | .shl x _, _ => {.V x, .V 15}
  | .ldI _, _ | .addI _, _ | .ldF _, _ => {.I}
  | .rnd x _, _ => {.V x, .draws}
  | .drw _ _ _, _ => {.V 15, .notify, .redrawPending} ∪ Set.range Cell.pixel
  | .ldDTVx _, _ => {.DT}
  | .ldSTVx _, _ => {.ST}
  | .ldVxK x, _ => {.V x, .wait}
  | .ldB _, s => bytesAt s.I.toNat 3
  | .storeRegs x, s => bytesAt s.I.toNat (x.val + 1)
  | .loadRegs x, _ => {c | ∃ k ≤ x, c = .V k}

theorem onlyChanges_setFlagThenReg (s : State) (x : Index) (o : AluOut) :
    OnlyChanges {.V x, .V 15} s (s.setFlagThenReg x o) :=
  ((onlyChanges_setReg s flagIndex o.flag).trans (onlyChanges_setReg _ x o.result)).mono
    (by rintro c (rfl | rfl) <;> simp)

/-- The frame of every instruction. -/
theorem effect_onlyChanges (i : Instr) (s : State) : OnlyChanges (writes i s) s (effect i s) := by
  cases i with
  | cls =>
    refine ((onlyChanges_setFb s _).trans (onlyChanges_notifyIf _ _)).mono ?_
    exact Set.union_comm _ _ |>.subset
  | ret => exact onlyChanges_pop s _
  | call =>
    refine ((onlyChanges_push s _ _).trans (onlyChanges_setPc _ _)).mono ?_
    rintro c ((rfl | rfl) | rfl) <;> simp [writes]
  | jp | jpV0 => exact onlyChanges_setPc s _
  | seImm | sneImm | seReg | sneReg | skp | sknp => exact onlyChanges_skipIf s _
  | ldImm | addImm | ldReg | orReg | andReg | xorReg | ldVxDT => exact onlyChanges_setReg s _ _
  | addReg | subReg | shr | subnReg | shl => exact onlyChanges_setFlagThenReg s _ _
  | ldI | addI | ldF => exact onlyChanges_setI s _
  | rnd =>
    refine ((onlyChanges_setReg s _ _).trans (onlyChanges_countDraw _)).mono ?_
    rintro c (rfl | rfl) <;> simp [writes]
  | drw x y n =>
    refine (((onlyChanges_setFb s _).trans (onlyChanges_setReg _ _ _)).trans
      (onlyChanges_notifyIf _ _)).mono ?_
    rintro c ((hc | rfl) | (rfl | rfl))
    · exact .inr hc
    all_goals simp [writes]
  | ldDTVx => exact onlyChanges_setDT s _
  | ldSTVx => exact onlyChanges_setST s _
  | ldVxK =>
    simp only [effect, writes]
    cases s.lowestHeld with
    | some k => exact (onlyChanges_setReg s _ _).mono (by simp)
    | none => exact (onlyChanges_setWait s _).mono (by simp)
  | ldB x => simpa [writes, effect] using onlyChanges_storeBytes s s.I.toNat (bcdDigits (s.reg x))
  | storeRegs x => simpa [writes, effect] using onlyChanges_storeBytes s s.I.toNat (s.regBlock x)
  | loadRegs => exact onlyChanges_loadBlock s _

/-- No effect touches the fault record. -/
theorem effect_fault (i : Instr) (s : State) : (effect i s).fault = s.fault := by
  refine effect_onlyChanges i s .fault ?_
  cases i <;> simp [writes]
end Sys2Proof.Machine

/-! # What one step of the machine can be

The inversion of `step`: a transaction of another agent, a dispatcher held by a fault or a key-wait, or a
ready dispatcher that cannot fetch, finds an illegal word, or executes an instruction, which faults or has
its effect (spec/40_cycle.md R57 to R62, spec/10_state.md R29). The claims about single steps are read off its
cases. -/

namespace Sys2Proof.Machine

/-! ## The dispatcher's phases as functions of the state -/

/-- The state after phase 1, from which phase 2 fetches (R58). -/
def drained (s : State) : State := s.takeNext.beginStep.drain

theorem drained_eq (s : State) :
    drained s = { s with
      keys := keysAfter s.keys s.queue, queue := [], notify := false, boot := .running
      schedule := s.schedule.tail } := by
  rw [drained, drain_eq]; rfl

theorem drained_pc (s : State) : (drained s).pc = s.pc := by rw [drained_eq]

/-- The word at `pc`, the byte at `pc` high (R34). -/
def wordAtPc (s : State) : Word := wordOfBytes (s.byteAt s.pc.toNat) (s.byteAt (s.pc.toNat + 1))

theorem drained_fetchWord (s : State) : (drained s).fetchWord = wordAtPc s := by
  rw [drained_eq]; rfl

theorem drained_advance (s : State) : (drained s).advance = fetched s := fetched_eq s

/-- No word at `pc` is legal. -/
def FetchesIllegal (s : State) : Prop := ∀ i, decodeWord (wordAtPc s) ≠ .ok i

theorem Executes.ready {s : State} {i : Instr} (h : Executes s i) : Ready s := h.1

theorem Executes.pc_le {s : State} {i : Instr} (h : Executes s i) : s.pc.toNat ≤ 4094 := h.2.1

theorem Executes.decode {s : State} {i : Instr} (h : Executes s i) :
    decodeWord (wordAtPc s) = .ok i := h.2.2

theorem step_of_ready_of_pc_gt {s : State} (h : Ready s) (hpc : 4094 < s.pc.toNat) :
    step s = .next ((drained s).setFault .memIndex (max s.pc.toNat 4096)) := by
  rw [step_of_ready h, ← drained, fetchAndExecute_eq, drained_pc, if_pos hpc]

theorem step_of_executes {s : State} {i : Instr} (h : Executes s i) :
    step s = exec i (fetched s) := by
  have hpc := h.pc_le
  rw [step_of_ready h.ready, ← drained, fetchAndExecute_eq, drained_pc, if_neg (by omega),
    drained_fetchWord, h.decode, drained_advance]

theorem step_of_illegal {s : State} (h : Ready s) (hpc : s.pc.toNat ≤ 4094)
    (hill : FetchesIllegal s) :
    step s = .next ((fetched s).setFault .unknownOpcode (wordAtPc s).toNat) := by
  rw [step_of_ready h, ← drained, fetchAndExecute_eq, drained_pc, if_neg (by omega),
    drained_fetchWord]
  cases hdec : decodeWord (wordAtPc s) with
  | ok i => exact absurd hdec (hill i)
  | error r => rw [drained_advance]

theorem step_of_halted {s : State} {r : FaultRecord} (h : Dispatching s) (hf : s.fault = some r) :
    step s = .next s.takeNext.beginStep := by
  rw [step_of_dispatching h, dispatcherStep_halted (s := s.takeNext) hf]

theorem step_of_waiting {s : State} {x : Index} (h : Dispatching s) (hf : s.fault = none)
    (hw : s.wait = some x) : step s = .next (waitStep x s.takeNext.beginStep) := by
  rw [step_of_dispatching h, dispatcherStep_waiting (s := s.takeNext) hf hw]

/-- A ready dispatcher cannot fetch, fetches an illegal word, or executes. -/
theorem ready_cases {s : State} (h : Ready s) :
    4094 < s.pc.toNat ∨ (s.pc.toNat ≤ 4094 ∧ FetchesIllegal s) ∨ ∃ i, Executes s i := by
  by_cases hpc : s.pc.toNat ≤ 4094
  · by_cases hdec : ∃ i, decodeWord (wordAtPc s) = .ok i
    · obtain ⟨i, hi⟩ := hdec
      exact .inr (.inr ⟨i, h, hpc, hi⟩)
    · exact .inr (.inl ⟨hpc, not_exists.1 hdec⟩)
  · exact .inl (by omega)

/-! ## The inversion -/

/-- One step takes `s` to the state, and why. -/
inductive StepTo (s : State) : State → Prop
  | reset : nextIs s .reset → StepTo s s.takeNext.resetCells
  | load (image : List Byte) : nextIs s (.load image) → StepTo s (s.takeNext.load image)
  | tick : nextIs s .tick → StepTo s s.takeNext.tick
  | keyEvent (e : KeyEvent) : nextIs s (.keyEvent e) → StepTo s (s.takeNext.enqueue e)
  | channelFail : nextIs s .channelFail → StepTo s s.takeNext.channelFail
  | fbRead (j : BitVec 11) : nextIs s (.fbRead j) → StepTo s s.takeNext
  | redrawAck : nextIs s .redrawAck → StepTo s s.takeNext.redrawAck
  | halted (r : FaultRecord) : Dispatching s → s.fault = some r → StepTo s s.takeNext.beginStep
  | waiting (x : Index) : Dispatching s → s.fault = none → s.wait = some x →
      StepTo s (waitStep x s.takeNext.beginStep)
  | fetchFault : Ready s → 4094 < s.pc.toNat →
      StepTo s ((drained s).setFault .memIndex (max s.pc.toNat 4096))
  | illegal : Ready s → s.pc.toNat ≤ 4094 → FetchesIllegal s →
      StepTo s ((fetched s).setFault .unknownOpcode (wordAtPc s).toNat)
  | faulted (i : Instr) (r : FaultRecord) : Executes s i → faultOf i (fetched s) = some r →
      StepTo s ((fetched s).setFault r.cause r.info)
  | executed (i : Instr) : Executes s i → faultOf i (fetched s) = none →
      StepTo s (effect i (fetched s))

/-- The dispatcher's own step answers a next state, which one of the cases explains. -/
theorem step_stepTo_of_dispatching {s : State} (h : Dispatching s) :
    ∃ t, step s = .next t ∧ StepTo s t := by
  cases hf : s.fault with
  | some r => exact ⟨_, step_of_halted h hf, .halted r h hf⟩
  | none =>
    cases hw : s.wait with
    | some x => exact ⟨_, step_of_waiting h hf hw, .waiting x h hf hw⟩
    | none =>
      have hready : Ready s := ⟨h, hf, hw⟩
      obtain hpc | ⟨hpc, hill⟩ | ⟨i, hi⟩ := ready_cases hready
      · exact ⟨_, step_of_ready_of_pc_gt hready hpc, .fetchFault hready hpc⟩
      · exact ⟨_, step_of_illegal hready hpc hill, .illegal hready hpc hill⟩
      · cases hfault : faultOf i (fetched s) with
        | some r =>
          exact ⟨_, (step_of_executes hi).trans (exec_of_fault hfault), .faulted i r hi hfault⟩
        | none =>
          exact ⟨_, (step_of_executes hi).trans (exec_of_no_fault hfault), .executed i hi hfault⟩

/-- Every step answers a next state, which one of the cases explains. -/
theorem step_stepTo (s : State) : ∃ t, step s = .next t ∧ StepTo s t := by
  cases h : s.nextUp with
  | step => exact step_stepTo_of_dispatching h
  | reset => exact ⟨_, step_of_nextIs h, .reset h⟩
  | load image => exact ⟨_, step_of_nextIs h, .load image h⟩
  | tick => exact ⟨_, step_of_nextIs h, .tick h⟩
  | keyEvent e => exact ⟨_, step_of_nextIs h, .keyEvent e h⟩
  | channelFail => exact ⟨_, step_of_nextIs h, .channelFail h⟩
  | fbRead j => exact ⟨_, step_of_nextIs h, .fbRead j h⟩
  | redrawAck => exact ⟨_, step_of_nextIs h, .redrawAck h⟩

theorem stepTo_of_step {s t : State} (h : step s = .next t) : StepTo s t := by
  obtain ⟨u, hu, hto⟩ := step_stepTo s
  rw [h] at hu
  cases hu
  exact hto

/-! ## The frames of the steps -/

theorem onlyChanges_drained (s : State) :
    OnlyChanges ({.queue, .notify, .boot, .schedule} ∪ Set.range Cell.key) s (drained s) := by
  rw [drained_eq]
  intro c hc
  cases c with
  | key k => exact absurd (.inr ⟨k, rfl⟩) hc
  | queue | notify | boot | schedule => simp at hc
  | _ => rfl

theorem onlyChanges_fetched (s : State) :
    OnlyChanges ({.pc, .queue, .notify, .boot, .schedule} ∪ Set.range Cell.key) s (fetched s) := by
  rw [← drained_advance]
  refine ((onlyChanges_drained s).trans (onlyChanges_setPc _ _)).mono ?_
  rintro c ((hc | hc) | rfl)
  · exact .inl (.inr hc)
  · exact .inr hc
  · simp

theorem onlyChanges_waitStep (x : Index) (s : State) :
    OnlyChanges ({.queue, .wait, .V x} ∪ Set.range Cell.key) s (waitStep x s) := by
  unfold waitStep
  split
  · exact OnlyChanges.refl _ s
  · next e rest _ =>
    have hevent : OnlyChanges ({.key e.code} ∪ {.queue}) s ((s.applyKey e).setQueue rest) :=
      (onlyChanges_applyKey s e).trans (onlyChanges_setQueue _ rest)
    split
    · refine ((hevent.trans (onlyChanges_setReg _ x _)).trans (onlyChanges_setWait _ none)).mono ?_
      rintro c (((rfl | rfl) | rfl) | rfl) <;> simp
    · refine hevent.mono ?_
      rintro c (rfl | rfl) <;> simp

theorem onlyChanges_tick (s : State) : OnlyChanges {.DT, .ST} s s.tick :=
  (onlyChanges_setDT s _).trans (onlyChanges_setST _ _)

theorem onlyChanges_enqueue (s : State) (e : KeyEvent) : OnlyChanges {.queue} s (s.enqueue e) :=
  onlyChanges_setQueue s _

theorem onlyChanges_redrawAck (s : State) : OnlyChanges {.redrawPending} s s.redrawAck := by
  intro c hc
  cases c with
  | redrawPending => simp at hc
  | _ => rfl

theorem onlyChanges_channelFail (s : State) : OnlyChanges {.fault} s s.channelFail := by
  rw [channelFail_eq]
  split
  · exact onlyChanges_setFault s _ _
  · exact OnlyChanges.refl _ s

theorem onlyChanges_setBoot (s : State) (b : Boot) : OnlyChanges {.boot} s { s with boot := b } := by
  intro c hc
  cases c with
  | boot => simp at hc
  | _ => rfl

/-- An accepted load writes the image, cut at 3584 bytes, and the ghost cell (R44). -/
theorem onlyChanges_load_fresh {s : State} (h : s.boot = .fresh) (image : List Byte) :
    OnlyChanges (bytesAt 0x200 (min image.length 3584) ∪ {.boot}) s (s.load image) := by
  rw [load_fresh h]
  have hstore := onlyChanges_storeBytes s 0x200 (image.take 3584)
  rw [List.length_take, min_comm] at hstore
  exact hstore.trans (onlyChanges_setBoot _ _)

/-- The cells that a dispatcher step can change beside what an instruction writes, and the cells of a fault. -/
def cycleCells : Set Cell :=
  {.pc, .queue, .wait, .fault, .notify, .boot, .schedule} ∪ (Set.range Cell.key ∪ Set.range Cell.V)

/-- Who writes what (R45, R113 to R118): a cell that a step changes is one of the cycle's own, or the step is a
reset, an accepted load, a tick or an acknowledgement that owns it, or an instruction that writes it. -/
inductive Writer (s : State) (c : Cell) : Prop
  | cycle : c ∈ cycleCells → Writer s c
  | reset : nextIs s .reset → Writer s c
  | load (image : List Byte) : nextIs s (.load image) → s.boot = .fresh →
      c ∈ bytesAt 0x200 (min image.length 3584) → Writer s c
  | tick : nextIs s .tick → c = .DT ∨ c = .ST → Writer s c
  | redrawAck : nextIs s .redrawAck → c = .redrawPending → Writer s c
  | instr (i : Instr) : Executes s i → c ∈ writes i (fetched s) → Writer s c

theorem mem_cycleCells_of_drained {c : Cell}
    (h : c ∈ ({.queue, .notify, .boot, .schedule} ∪ Set.range Cell.key : Set Cell)) :
    c ∈ cycleCells := by
  rcases h with h | h
  · rcases h with rfl | rfl | rfl | rfl <;> simp [cycleCells]
  · exact .inr (.inl h)

theorem mem_cycleCells_of_fetched {c : Cell}
    (h : c ∈ ({.pc, .queue, .notify, .boot, .schedule} ∪ Set.range Cell.key : Set Cell)) :
    c ∈ cycleCells := by
  rcases h with h | h
  · rcases h with rfl | rfl | rfl | rfl | rfl <;> simp [cycleCells]
  · exact .inr (.inl h)

theorem OnlyChanges.mem_of_not_sameAt {cells : Set Cell} {s t : State} {c : Cell}
    (h : OnlyChanges cells s t) (hc : ¬ SameAt c s t) : c ∈ cells :=
  not_not.1 fun hn => hc (h c hn)

theorem StepTo.writer {s t : State} (h : StepTo s t) {c : Cell} (hc : ¬ SameAt c s t) :
    Writer s c := by
  cases h with
  | reset hn => exact .reset hn
  | load image hn =>
    by_cases hb : s.boot = .fresh
    · obtain rfl | hbyte | rfl := ((onlyChanges_takeNext s).trans
        (onlyChanges_load_fresh (s := s.takeNext) hb image)).mem_of_not_sameAt hc
      · exact .cycle (by simp [cycleCells])
      · exact .load image hn hb hbyte
      · exact .cycle (by simp [cycleCells])
    · rw [load_not_fresh (s := s.takeNext) hb] at hc
      obtain rfl := (onlyChanges_takeNext s).mem_of_not_sameAt hc
      exact .cycle (by simp [cycleCells])
  | tick hn =>
    obtain rfl | hc := ((onlyChanges_takeNext s).trans (onlyChanges_tick _)).mem_of_not_sameAt hc
    · exact .cycle (by simp [cycleCells])
    · exact .tick hn hc
  | keyEvent e hn =>
    obtain rfl | rfl :=
      ((onlyChanges_takeNext s).trans (onlyChanges_enqueue _ e)).mem_of_not_sameAt hc <;>
      exact .cycle (by simp [cycleCells])
  | channelFail hn =>
    obtain rfl | rfl :=
      ((onlyChanges_takeNext s).trans (onlyChanges_channelFail _)).mem_of_not_sameAt hc <;>
      exact .cycle (by simp [cycleCells])
  | fbRead j hn =>
    obtain rfl := (onlyChanges_takeNext s).mem_of_not_sameAt hc
    exact .cycle (by simp [cycleCells])
  | redrawAck hn =>
    obtain rfl | rfl :=
      ((onlyChanges_takeNext s).trans (onlyChanges_redrawAck _)).mem_of_not_sameAt hc
    · exact .cycle (by simp [cycleCells])
    · exact .redrawAck hn rfl
  | halted r hd hf =>
    obtain rfl | rfl | rfl :=
      ((onlyChanges_takeNext s).trans (onlyChanges_beginStep _)).mem_of_not_sameAt hc <;>
      exact .cycle (by simp [cycleCells])
  | waiting x hd hf hw =>
    obtain (rfl | rfl | rfl) | ((rfl | rfl | rfl) | ⟨k, rfl⟩) :=
      (((onlyChanges_takeNext s).trans (onlyChanges_beginStep _)).trans
        (onlyChanges_waitStep x _)).mem_of_not_sameAt hc <;>
      exact .cycle (by simp [cycleCells])
  | fetchFault hr hpc =>
    obtain hc | rfl :=
      ((onlyChanges_drained s).trans (onlyChanges_setFault _ _ _)).mem_of_not_sameAt hc
    · exact .cycle (mem_cycleCells_of_drained hc)
    · exact .cycle (by simp [cycleCells])
  | illegal | faulted =>
    obtain hc | rfl :=
      ((onlyChanges_fetched s).trans (onlyChanges_setFault _ _ _)).mem_of_not_sameAt hc
    · exact .cycle (mem_cycleCells_of_fetched hc)
    · exact .cycle (by simp [cycleCells])
  | executed i hi hfault =>
    obtain hc | hc :=
      ((onlyChanges_fetched s).trans (effect_onlyChanges i _)).mem_of_not_sameAt hc
    · exact .cycle (mem_cycleCells_of_fetched hc)
    · exact .instr i hi hc

end Sys2Proof.Machine

/-! # Encoding and decoding

The claims of spec/30_encoding.md: decoding inverts encoding and the other way about (R46 to R50), the legal
words are those of the 34 rows (R50), the illegal ones those of the table of R51. A word under a mask of the
map is the encoding of an instruction with the word's own fields. -/

namespace Sys2Proof

/-! ## Decoding and encoding are inverse -/

/-- Settles O1: the fields of an encoded word are the ones it was made of, and select the instruction's arm. -/
theorem decodeOfEncodeGivesInstruction : Obligations.DecodeOfEncodeGivesInstruction := by
  intro i hwf
  cases i with
  | cls | ret => decide
  | drw x y n =>
    have hn : n ≤ 15 := by simpa [Instr.wellFormed] using hwf
    have hmod : n % 16 = n := by omega
    simp [encode, decodeWord, hmod]
  | ldReg | orReg | andReg | xorReg | addReg | subReg | shr | subnReg | shl =>
    simp [encode, decodeWord, decodeAlu]
  | skp | sknp => simp [encode, decodeWord, decodeKey]
  | ldVxDT | ldDTVx | ldSTVx | ldVxK | addI | ldF | ldB | storeRegs | loadRegs =>
    simp [encode, decodeWord, decodeMisc]
  | _ => simp [encode, decodeWord]

theorem encode_of_decodeAlu {op : Word} {i : Instr} (hhi : hiField op = 0x8)
    (h : decodeAlu op = .ok i) : i.wellFormed = true ∧ encode i = op := by
  have hop := encodeXYN_fields op
  unfold decodeAlu at h
  split at h
  case h_10 => cases h
  all_goals
    next hn =>
      cases h
      rw [hhi, hn] at hop
      exact ⟨rfl, hop⟩

theorem encode_of_decodeKey {op : Word} {i : Instr} (hhi : hiField op = 0xE)
    (h : decodeKey op = .ok i) : i.wellFormed = true ∧ encode i = op := by
  have hop := encodeXKK_fields op
  unfold decodeKey at h
  split at h
  case h_3 => cases h
  all_goals
    next hkk =>
      cases h
      rw [hhi, hkk] at hop
      exact ⟨rfl, hop⟩

theorem encode_of_decodeMisc {op : Word} {i : Instr} (hhi : hiField op = 0xF)
    (h : decodeMisc op = .ok i) : i.wellFormed = true ∧ encode i = op := by
  have hop := encodeXKK_fields op
  unfold decodeMisc at h
  split at h
  case h_10 => cases h
  all_goals
    next hkk =>
      cases h
      rw [hhi, hkk] at hop
      exact ⟨rfl, hop⟩

/-- Settles O2: in each arm of the decoder the fields that are not operands are the encoder's constants. The
cases `h_1` to `h_16` are the arms of the top digits 0 to F, `h_17` is the default that no digit reaches. -/
theorem encodeOfDecodeGivesWord : Obligations.EncodeOfDecodeGivesWord := by
  intro op i h
  have hnnn := encodeNNN_fields op
  have hxkk := encodeXKK_fields op
  have hxyn := encodeXYN_fields op
  unfold decodeWord at h
  split at h <;> (try rename_i hhi; rw [hhi] at hnnn hxkk hxyn)
  case h_1 =>
    split at h
    · next hop => cases h; exact ⟨rfl, hop.symm⟩
    · split at h
      · next hop => cases h; exact ⟨rfl, hop.symm⟩
      · cases h
  case h_6 | h_10 =>
    split at h
    · next hn => cases h; rw [hn] at hxyn; exact ⟨rfl, hxyn⟩
    · cases h
  case h_9 => exact encode_of_decodeAlu hhi h
  case h_14 =>
    cases h
    have hn := (nField op).isLt
    refine ⟨by simp only [Instr.wellFormed, decide_eq_true_eq]; omega, ?_⟩
    simpa [encode] using hxyn
  case h_15 => exact encode_of_decodeKey hhi h
  case h_16 => exact encode_of_decodeMisc hhi h
  case h_17 => cases h
  case h_2 | h_3 | h_11 | h_12 => cases h; exact ⟨rfl, hnnn⟩
  all_goals cases h; exact ⟨rfl, hxkk⟩

/-! ## A word under a mask of the map -/

theorem nField_of_masked {op : Word} {hi n : BitVec 4} (h : op &&& 0xF00F = encodeXYN hi 0 0 n) :
    hiField op = hi ∧ nField op = n := by
  have hfields : encodeXYN (hiField op) 0 0 (nField op) = encodeXYN hi 0 0 n :=
    (and_maskXY op).symm.trans h
  exact ⟨by simpa using congrArg hiField hfields, by simpa using congrArg nField hfields⟩

theorem kkField_of_masked {op : Word} {hi : BitVec 4} {kk : Byte}
    (h : op &&& 0xF0FF = encodeXKK hi 0 kk) : hiField op = hi ∧ kkField op = kk := by
  have hfields : encodeXKK (hiField op) 0 (kkField op) = encodeXKK hi 0 kk :=
    (and_maskXB op).symm.trans h
  exact ⟨by simpa using congrArg hiField hfields, by simpa using congrArg kkField hfields⟩

/-- Decoding a word given as an encoding. -/
theorem decodeWord_of_eq_encode {op : Word} {i : Instr} (hwf : i.wellFormed = true)
    (h : op = encode i) : decodeWord op = .ok i := by
  rw [h, decodeOfEncodeGivesInstruction i hwf]

theorem eq_encodeXKK_of_masked_hi {op : Word} {hi : BitVec 4} (h : op &&& 0xF000 = encodeNNN hi 0) :
    op = encodeXKK hi (xField op) (kkField op) := by
  rw [← hiField_of_masked h, encodeXKK_fields]

theorem eq_encodeNNN_of_masked {op : Word} {hi : BitVec 4} (h : op &&& 0xF000 = encodeNNN hi 0) :
    op = encodeNNN hi (nnnField op) := by
  rw [← hiField_of_masked h, encodeNNN_fields]

theorem eq_encodeXYN_of_masked {op : Word} {hi n : BitVec 4}
    (h : op &&& 0xF00F = encodeXYN hi 0 0 n) : op = encodeXYN hi (xField op) (yField op) n := by
  obtain ⟨hhi, hn⟩ := nField_of_masked h
  conv_lhs => rw [← encodeXYN_fields op, hhi, hn]

theorem eq_encodeXKK_of_masked {op : Word} {hi : BitVec 4} {kk : Byte}
    (h : op &&& 0xF0FF = encodeXKK hi 0 kk) : op = encodeXKK hi (xField op) kk := by
  obtain ⟨hhi, hkk⟩ := kkField_of_masked h
  conv_lhs => rw [← encodeXKK_fields op, hhi, hkk]

/-! ## Which words are legal -/

/-- The top digits that alone make a word legal (R49). -/
def freeDigits : List (BitVec 4) := [0x1, 0x2, 0x3, 0x4, 0x6, 0x7, 0xA, 0xB, 0xC, 0xD]

/-- The low nibbles of `8xy_` (R49, D6). -/
def aluNibbles : List (BitVec 4) := [0x0, 0x1, 0x2, 0x3, 0x4, 0x5, 0x6, 0x7, 0xE]

/-- The low bytes of `Ex__` (R49). -/
def keyBytes : List Byte := [0x9E, 0xA1]

/-- The low bytes of `Fx__` (R49, D17). -/
def miscBytes : List Byte := [0x07, 0x0A, 0x15, 0x18, 0x1E, 0x29, 0x33, 0x55, 0x65]

/-- Legality on the fields of a word (R49). -/
def LegalFields (op : Word) : Prop :=
  (hiField op = 0x0 ∧ (op = 0x00E0 ∨ op = 0x00EE)) ∨
  hiField op ∈ freeDigits ∨
  ((hiField op = 0x5 ∨ hiField op = 0x9) ∧ nField op = 0x0) ∨
  (hiField op = 0x8 ∧ nField op ∈ aluNibbles) ∨
  (hiField op = 0xE ∧ kkField op ∈ keyBytes) ∨
  (hiField op = 0xF ∧ kkField op ∈ miscBytes)

theorem decodeAlu_isOk_iff (op : Word) : (∃ i, decodeAlu op = .ok i) ↔ nField op ∈ aluNibbles := by
  unfold decodeAlu aluNibbles
  split <;> simp_all

theorem decodeKey_isOk_iff (op : Word) : (∃ i, decodeKey op = .ok i) ↔ kkField op ∈ keyBytes := by
  unfold decodeKey keyBytes
  split <;> simp_all

theorem decodeMisc_isOk_iff (op : Word) :
    (∃ i, decodeMisc op = .ok i) ↔ kkField op ∈ miscBytes := by
  unfold decodeMisc miscBytes
  split <;> simp_all

/-- The decoder accepts exactly the legal words. The case split is the decoder's, on the top digit: `h_1` to
`h_16` for 0 to F. -/
theorem decodeWord_isOk_iff (op : Word) : (∃ i, decodeWord op = .ok i) ↔ LegalFields op := by
  unfold decodeWord LegalFields freeDigits
  split
  case h_1 hhi | h_6 hhi | h_10 hhi => split_ifs <;> simp_all
  case h_9 hhi => rw [decodeAlu_isOk_iff]; simp [hhi]
  case h_15 hhi => rw [decodeKey_isOk_iff]; simp [hhi]
  case h_16 hhi => rw [decodeMisc_isOk_iff]; simp [hhi]
  all_goals simp_all

/-! ## The rows of the map -/

/-- Which digits a row fixes, by its mask. -/
def RowFixes (r : OpcodeRow) : Prop :=
  (r.mask = 0xFFFF ∧ (r.pattern = 0x00E0 ∨ r.pattern = 0x00EE)) ∨
  (r.mask = 0xF000 ∧ ∃ hi ∈ freeDigits, r.pattern = encodeNNN hi 0) ∨
  (r.mask = 0xF00F ∧ (r.pattern = encodeXYN 0x5 0 0 0x0 ∨ r.pattern = encodeXYN 0x9 0 0 0x0)) ∨
  (r.mask = 0xF00F ∧ ∃ n ∈ aluNibbles, r.pattern = encodeXYN 0x8 0 0 n) ∨
  (r.mask = 0xF0FF ∧ ∃ kk ∈ keyBytes, r.pattern = encodeXKK 0xE 0 kk) ∨
  (r.mask = 0xF0FF ∧ ∃ kk ∈ miscBytes, r.pattern = encodeXKK 0xF 0 kk)

theorem rowFixes_of_mem : ∀ r ∈ opcodeRows, RowFixes r := by
  unfold RowFixes
  decide

/-- A word in a row is legal: the digits that the row fixes are those that the decoder compares. -/
theorem legalFields_of_row {op : Word} {r : OpcodeRow} (hr : r ∈ opcodeRows)
    (h : op &&& r.mask = r.pattern) : LegalFields op := by
  obtain ⟨hm, hp⟩ | ⟨hm, hi, hhi, hp⟩ | ⟨hm, hp⟩ | ⟨hm, n, hn, hp⟩ | ⟨hm, kk, hkk, hp⟩ |
    ⟨hm, kk, hkk, hp⟩ := rowFixes_of_mem r hr <;> rw [hm] at h
  · rw [show (0xFFFF : Word) = BitVec.allOnes 16 from rfl, BitVec.and_allOnes] at h
    rw [← h] at hp
    refine .inl ⟨?_, hp⟩
    rcases hp with rfl | rfl <;> decide
  · rw [hp] at h
    exact .inr (.inl (hiField_of_masked h ▸ hhi))
  · refine .inr (.inr (.inl ?_))
    rcases hp with hp | hp <;> rw [hp] at h <;> obtain ⟨hhi, hn⟩ := nField_of_masked h
    · exact ⟨.inl hhi, hn⟩
    · exact ⟨.inr hhi, hn⟩
  · rw [hp] at h
    obtain ⟨hhi, rfl⟩ := nField_of_masked h
    exact .inr (.inr (.inr (.inl ⟨hhi, hn⟩)))
  · rw [hp] at h
    obtain ⟨hhi, rfl⟩ := kkField_of_masked h
    exact .inr (.inr (.inr (.inr (.inl ⟨hhi, hkk⟩))))
  · rw [hp] at h
    obtain ⟨hhi, rfl⟩ := kkField_of_masked h
    exact .inr (.inr (.inr (.inr (.inr ⟨hhi, hkk⟩))))

/-- The encoder's word lies in the instruction's row. -/
theorem encode_in_row (i : Instr) : Laws.EncodedInRow.Statement i := by
  cases i with
  | cls => exact Laws.EncodedInRow.cls
  | ret => exact Laws.EncodedInRow.ret
  | jp => exact Laws.EncodedInRow.jp _
  | call => exact Laws.EncodedInRow.call _
  | seImm => exact Laws.EncodedInRow.seImm _ _
  | sneImm => exact Laws.EncodedInRow.sneImm _ _
  | seReg => exact Laws.EncodedInRow.seReg _ _
  | sneReg => exact Laws.EncodedInRow.sneReg _ _
  | ldImm => exact Laws.EncodedInRow.ldImm _ _
  | addImm => exact Laws.EncodedInRow.addImm _ _
  | ldReg => exact Laws.EncodedInRow.ldReg _ _
  | orReg => exact Laws.EncodedInRow.orReg _ _
  | andReg => exact Laws.EncodedInRow.andReg _ _
  | xorReg => exact Laws.EncodedInRow.xorReg _ _
  | addReg => exact Laws.EncodedInRow.addReg _ _
  | subReg => exact Laws.EncodedInRow.subReg _ _
  | shr => exact Laws.EncodedInRow.shr _ _
  | subnReg => exact Laws.EncodedInRow.subnReg _ _
  | shl => exact Laws.EncodedInRow.shl _ _
  | ldI => exact Laws.EncodedInRow.ldI _
  | jpV0 => exact Laws.EncodedInRow.jpV0 _
  | rnd => exact Laws.EncodedInRow.rnd _ _
  | drw => exact Laws.EncodedInRow.drw _ _ _
  | skp => exact Laws.EncodedInRow.skp _
  | sknp => exact Laws.EncodedInRow.sknp _
  | ldVxDT => exact Laws.EncodedInRow.ldVxDT _
  | ldDTVx => exact Laws.EncodedInRow.ldDTVx _
  | ldSTVx => exact Laws.EncodedInRow.ldSTVx _
  | ldVxK => exact Laws.EncodedInRow.ldVxK _
  | addI => exact Laws.EncodedInRow.addI _
  | ldF => exact Laws.EncodedInRow.ldF _
  | ldB => exact Laws.EncodedInRow.ldB _
  | storeRegs => exact Laws.EncodedInRow.storeRegs _
  | loadRegs => exact Laws.EncodedInRow.loadRegs _

/-- The row of a legal word is its instruction's. -/
theorem row_of_decodeWord {op : Word} {i : Instr} (h : decodeWord op = .ok i) :
    i.row ∈ opcodeRows ∧ op &&& i.row.mask = i.row.pattern := by
  obtain ⟨-, rfl⟩ := encodeOfDecodeGivesWord op i h
  exact encode_in_row i

/-- Two rows that fix some common bit differently share no word. -/
theorem rows_disjoint {r q : OpcodeRow} (h : r.pattern &&& q.mask ≠ q.pattern &&& r.mask)
    (op : Word) : ¬ (op &&& r.mask = r.pattern ∧ op &&& q.mask = q.pattern) := by
  rintro ⟨hr, hq⟩
  exact h (by rw [← hr, ← hq, BitVec.and_assoc, BitVec.and_assoc, BitVec.and_comm r.mask])

/-- Settles O3: a legal word lies in its instruction's row, a word in a row has legal fields, and each two
rows differ in a bit that both fix. -/
theorem decodeFollowsOpcodeMap : Obligations.DecodeFollowsOpcodeMap := by
  refine ⟨fun op => ⟨?_, ?_⟩, fun op i => row_of_decodeWord, rfl, ?_⟩
  · rintro ⟨i, hi⟩
    exact ⟨i.row, row_of_decodeWord hi⟩
  · rintro ⟨r, hr, hop⟩
    exact (decodeWord_isOk_iff op).2 (legalFields_of_row hr hop)
  · have hdiffer : opcodeRows.Pairwise fun r q => r.pattern &&& q.mask ≠ q.pattern &&& r.mask := by
      decide
    exact hdiffer.imp rows_disjoint

/-- Settles O5. -/
theorem sampleWordsDecode : Obligations.SampleWordsDecode := by
  unfold Obligations.SampleWordsDecode
  decide

/-! ## The table of illegal words -/

/-- The fields as quotients and remainders: R51's table is what R49 leaves over. -/
theorem not_legalFields_iff (op : Word) : ¬ LegalFields op ↔
    (op.toNat < 0x1000 ∧ op.toNat ≠ 0x00E0 ∧ op.toNat ≠ 0x00EE) ∨
    ((op.toNat / 0x1000 = 0x5 ∨ op.toNat / 0x1000 = 0x9) ∧ op.toNat % 16 ≠ 0) ∨
    (op.toNat / 0x1000 = 0x8 ∧ 7 < op.toNat % 16 ∧ op.toNat % 16 ≠ 0xE) ∨
    (op.toNat / 0x1000 = 0xE ∧ op.toNat % 256 ≠ 0x9E ∧ op.toNat % 256 ≠ 0xA1) ∨
    (op.toNat / 0x1000 = 0xF ∧
      op.toNat % 256 ∉ [0x07, 0x0A, 0x15, 0x18, 0x1E, 0x29, 0x33, 0x55, 0x65]) := by
  have hzero : op.toNat < 0x1000 ↔ op.toNat / 0x1000 = 0 := by omega
  have hhi : op.toNat / 0x1000 < 16 := by have := op.isLt; omega
  have hn : op.toNat % 16 < 16 := by omega
  simp only [hzero, LegalFields, freeDigits, aluNibbles, keyBytes, miscBytes, List.mem_cons,
    List.not_mem_nil, or_false, ← BitVec.toNat_inj, hiField_toNat, nField_toNat, kkField_toNat,
    BitVec.ofNat_eq_ofNat, BitVec.toNat_ofNat, Nat.reducePow, Nat.reduceMod]
  generalize op.toNat / 0x1000 = hi at *
  generalize op.toNat % 16 = n at *
  clear hzero
  interval_cases hi <;> simp
  omega

end Sys2Proof

namespace Sys2Proof.Machine

/-- A fetch succeeds only with `pc` at most 4094, so the advanced `pc` does not wrap (R59). -/
theorem fetched_pc_toNat {s : State} (h : s.pc.toNat ≤ 4094) :
    (fetched s).pc.toNat = s.pc.toNat + 2 := by
  have hpc : (fetched s).pc = s.pc + 2 := rfl
  rw [hpc, BitVec.toNat_add]
  simp only [BitVec.ofNat_eq_ofNat, BitVec.toNat_ofNat]
  omega

theorem wordAtPc_toNat (s : State) :
    (wordAtPc s).toNat =
      (s.byteAt s.pc.toNat).toNat * 256 + (s.byteAt (s.pc.toNat + 1)).toNat :=
  wordOfBytes_toNat _ _

/-- Settles O4: R51's table is the complement of R49 on the fields, and the step is `step_of_illegal`. -/
theorem illegalWordsFault : Obligations.IllegalWordsFault := by
  refine ⟨fun op => ?_, fun s hready hpc hill => ?_⟩
  · rw [← not_legalFields_iff, ← decodeWord_isOk_iff, not_exists]
  · refine ⟨_, step_of_illegal hready hpc hill, ?_, fetched_pc_toNat hpc, onlyChanges_setFault _ _ _⟩
    rw [State.setFault_fault, wordAtPc_toNat]

end Sys2Proof.Machine

/-! # The single instructions: control transfer, registers, keys and timers

The claims of spec/41_flow.md, spec/42_alu.md and spec/45_keys_timers.md about one instruction each. Decoding
is `decodeWord_of_eq_encode` under the row's mask; the execute phase is the fault or the effect by `exec_eq`,
whose frame is `effect_onlyChanges`. -/

namespace Sys2Proof.Machine

/-! ## The two outcomes of an execute phase -/

/-- A faulting execute phase records its fault and changes nothing else (R108). -/
theorem exec_faults {i : Instr} {s : State} {r : FaultRecord} (h : faultOf i s = some r) :
    ∃ t, exec i s = .next t ∧ t.fault = some r ∧ OnlyChanges {.fault} s t :=
  ⟨s.setFault r.cause r.info, exec_of_fault h, rfl, onlyChanges_setFault s _ _⟩

/-! ## Call and return -/

theorem faultOf_call_of_lt {s : State} (nnn : BitVec 12) (h : s.sp.toNat < 15) :
    faultOf (.call nnn) s = none := by
  simp only [faultOf, ite_eq_right_iff, reduceCtorEq]; omega

theorem faultOf_ret_of_bounds {s : State} (h : 0 < s.sp.toNat) (h' : s.sp.toNat ≤ 15) :
    faultOf .ret s = none := by
  simp only [faultOf, ite_eq_right_iff, reduceCtorEq]; omega

theorem sp_add_one_toNat {s : State} (h : s.sp.toNat < 15) :
    (s.sp + 1).toNat = s.sp.toNat + 1 := by
  rw [BitVec.toNat_add]; simp only [BitVec.ofNat_eq_ofNat, BitVec.toNat_ofNat]; omega

theorem sp_sub_one_toNat {s : State} (h : 0 < s.sp.toNat) :
    (s.sp - 1).toNat + 1 = s.sp.toNat := by
  have hlt := s.sp.isLt
  rw [BitVec.toNat_sub]; simp only [BitVec.ofNat_eq_ofNat, BitVec.toNat_ofNat]; omega

/-- Settles O32: where the next stack index exists the effect is a push and a jump. -/
theorem callPushesReturnAddress : Obligations.CallPushesReturnAddress := by
  refine ⟨fun op hop => decodeWord_of_eq_encode rfl (eq_encodeNNN_of_masked (hi := 0x2) hop),
    fun nnn s => ⟨fun j hj => ?_, fun hfull => exec_faults ?_⟩⟩
  · have hsp : s.sp.toNat < 15 := by omega
    obtain rfl := eq_finOfNat hj.symm
    exact ⟨_, exec_of_no_fault (faultOf_call_of_lt nnn hsp), sp_add_one_toNat hsp,
      Vector.getElem_set_self _, zext16_toNat nnn, effect_onlyChanges (.call nnn) s⟩
  · rw [faultOf, if_pos (by omega)]

/-- Settles O33: with a call outstanding the effect is a pop. -/
theorem returnPopsAddress : Obligations.ReturnPopsAddress := by
  refine ⟨fun op => ⟨fun h => (encodeOfDecodeGivesWord op _ h).2.symm, ?_⟩,
    fun s => ⟨fun j hj hsp => ?_, fun hsp => exec_faults (if_pos hsp)⟩⟩
  · rintro rfl; decide
  · have hpos : 0 < s.sp.toNat := by
      have : j.val ≠ 0 := fun h => hj (Fin.ext h)
      omega
    obtain rfl := eq_finOfNat hsp.symm
    exact ⟨_, exec_of_no_fault (faultOf_ret_of_bounds hpos (by omega)), rfl, sp_sub_one_toNat hpos,
      effect_onlyChanges .ret s⟩

/-- Settles O34: the pop reads the entry that the push wrote. -/
theorem returnUndoesCall : Obligations.ReturnUndoesCall := by
  intro nnn s t u hsp hcall husp hustack
  have hlt : s.sp.toNat < 15 := by omega
  rw [exec_of_no_fault (faultOf_call_of_lt nnn hlt)] at hcall
  cases hcall
  have husp' : u.sp = s.sp + 1 := husp
  have huspNat : u.sp.toNat = s.sp.toNat + 1 := by rw [husp', sp_add_one_toNat hlt]
  refine ⟨_, exec_of_no_fault (faultOf_ret_of_bounds (by omega) (by omega)), ?_, ?_,
    effect_onlyChanges .ret u⟩
  · simp [effect, hustack, huspNat]
  · simp [effect, husp']

/-! ## Skips -/

theorem nField_ne_zero {op : Word} (h : op &&& 0x000F ≠ 0) : nField op ≠ 0#4 := by
  intro hn
  refine h (BitVec.eq_of_toNat_eq ?_)
  have hmod : op.toNat % 16 = 0 := by rw [← nField_toNat, hn]; rfl
  rw [BitVec.toNat_and]
  exact (Nat.and_two_pow_sub_one_eq_mod op.toNat 4).trans hmod

theorem skipIf_pc (s : State) (c : Bool) :
    (s.skipIf c).pc = if c = true then s.pc + 2 else s.pc := by
  rw [State.skipIf_eq]; rfl

theorem skipIf_not_pc (s : State) (c : Bool) :
    (s.skipIf !c).pc = if c = true then s.pc else s.pc + 2 := by
  rw [State.skipIf_eq]; cases c <;> rfl

/-- Settles O36: both skips are `skipIf` on the comparison of `V[x]` with `V[y]`. -/
theorem skipOnRegisters : Obligations.SkipOnRegisters := by
  refine ⟨fun op hop => decodeWord_of_eq_encode rfl (eq_encodeXYN_of_masked (hi := 0x5) hop),
    fun op hop => decodeWord_of_eq_encode rfl (eq_encodeXYN_of_masked (hi := 0x9) hop),
    fun op hop hlow => ?_, fun x y s => ⟨?_, ?_⟩⟩
  · have hn := nField_ne_zero hlow
    rcases hop with hop | hop
    · simp [decodeWord, hiField_of_masked (hi := 0x5) hop, hn]
    · simp [decodeWord, hiField_of_masked (hi := 0x9) hop, hn]
  · exact ⟨_, rfl, skipIf_beq_pc s _ _, effect_onlyChanges (.seReg x y) s⟩
  · exact ⟨_, rfl, skipIf_bne_pc s _ _, effect_onlyChanges (.sneReg x y) s⟩

/-- Settles O56: the key number is the index that the check found. -/
theorem skipOnKey : Obligations.SkipOnKey := by
  intro x s
  refine ⟨fun k hk => ⟨?_, ?_⟩, fun hbig => ⟨exec_faults (if_pos hbig), exec_faults (if_pos hbig)⟩⟩
  · obtain rfl := eq_finOfNat hk
    exact ⟨_, exec_of_no_fault (if_neg (by omega)), skipIf_pc s _, effect_onlyChanges (.skp x) s⟩
  · obtain rfl := eq_finOfNat hk
    exact ⟨_, exec_of_no_fault (if_neg (by omega)), skipIf_not_pc s _,
      effect_onlyChanges (.sknp x) s⟩

/-! ## Register loads, logic and arithmetic -/

/-- Settles O39: each of the three is one write of `V[x]`. -/
theorem registerLoadsAndXor : Obligations.RegisterLoadsAndXor :=
  ⟨fun _ hop => decodeWord_of_eq_encode rfl (eq_encodeXKK_of_masked_hi (hi := 0x6) hop),
    fun _ hop => decodeWord_of_eq_encode rfl (eq_encodeXYN_of_masked (hi := 0x8) (n := 0x0) hop),
    fun _ hop => decodeWord_of_eq_encode rfl (eq_encodeXYN_of_masked (hi := 0x8) (n := 0x3) hop),
    fun x y kk s =>
      ⟨⟨_, rfl, s.reg_setReg_self x _, effect_onlyChanges (.ldImm x kk) s⟩,
        ⟨_, rfl, s.reg_setReg_self x _, effect_onlyChanges (.ldReg x y) s⟩,
        ⟨_, rfl, s.reg_setReg_self x _, effect_onlyChanges (.xorReg x y) s⟩⟩⟩

theorem aluAdd_result_toNat (a b : Byte) : (aluAdd a b).result.toNat = (a.toNat + b.toNat) % 256 := by
  simp [aluAdd]

theorem aluSub_result_toNat (a b : Byte) :
    (aluSub a b).result.toNat = (a.toNat + 256 - b.toNat) % 256 := by
  simp [aluSub]

theorem aluShr_result_toNat (a : Byte) : (aluShr a).result.toNat = a.toNat / 2 := by
  simp [aluShr, Nat.shiftRight_eq_div_pow]

theorem aluShl_result_toNat (a : Byte) : (aluShl a).result.toNat = a.toNat * 2 % 256 := by
  simp [aluShl, Nat.shiftLeft_eq]

theorem flagByte_decide (p : Prop) [Decidable p] : flagByte (decide p) = if p then 1 else 0 := by
  simp [flagByte]

theorem aluShr_flag_toNat (a : Byte) : (aluShr a).flag.toNat = a.toNat % 2 := by
  have h : (aluShr a).flag = flagByte (decide (a.toNat % 2 = 1)) := by
    simp [aluShr, BitVec.getLsbD, Nat.testBit_zero]
  rw [h, flagByte_decide]
  split <;> simp <;> omega

theorem aluShl_flag_toNat (a : Byte) : (aluShl a).flag.toNat = a.toNat / 128 := by
  have hlt := a.isLt
  have h : (aluShl a).flag = flagByte (decide (a.toNat / 128 % 2 = 1)) := by
    simp [aluShl, BitVec.getLsbD, Nat.testBit_eq_decide_div_mod_eq]
  rw [h, flagByte_decide]
  split <;> simp <;> omega

/-- Settles O40: each of the three is one write of `V[x]`, and the switch `ALU_AND_MODE` stands at union. -/
theorem addImmediateAndUnion : Obligations.AddImmediateAndUnion := by
  intro x y kk s
  refine ⟨⟨_, rfl, ?_, effect_onlyChanges (.addImm x kk) s⟩,
    ⟨_, rfl, fun b => ?_, effect_onlyChanges (.orReg x y) s⟩,
    ⟨_, rfl, fun b => ?_, effect_onlyChanges (.andReg x y) s⟩⟩
  · rw [State.reg_setReg_self, aluAdd_result_toNat]
  · rw [State.reg_setReg_self, BitVec.getLsbD_or]
  · rw [State.reg_setReg_self]
    exact BitVec.getLsbD_or

@[simp] theorem setFlagThenReg_reg_self (s : State) (x : Index) (o : AluOut) :
    (s.setFlagThenReg x o).reg x = o.result :=
  State.reg_setReg_self _ x _

/-- The flag stays in `V[15]` unless the result overwrites it (R85, D9). -/
theorem setFlagThenReg_reg_flag (s : State) {x : Index} (h : x ≠ 15) (o : AluOut) :
    (s.setFlagThenReg x o).reg 15 = o.flag := by
  rw [State.setFlagThenReg, State.reg_setReg_ne _ _ h.symm, State.reg_setReg_self]

/-- Settles O41: the result and the flag are those of `aluAdd` and `aluSub` on the old operands. -/
theorem arithmeticWithFlag : Obligations.ArithmeticWithFlag := by
  rintro x y s a b rfl rfl
  refine ⟨⟨_, rfl, ?_, fun hx => ?_, effect_onlyChanges (.addReg x y) s⟩,
    ⟨_, rfl, ?_, fun hx => ?_, effect_onlyChanges (.subReg x y) s⟩,
    ⟨_, rfl, ?_, fun hx => ?_, effect_onlyChanges (.subnReg x y) s⟩⟩
  · rw [setFlagThenReg_reg_self, aluAdd_result_toNat]
  · rw [setFlagThenReg_reg_flag s hx]; exact flagByte_decide _
  · rw [setFlagThenReg_reg_self, aluSub_result_toNat]
  · rw [setFlagThenReg_reg_flag s hx]; exact flagByte_decide _
  · rw [setFlagThenReg_reg_self, aluSub_result_toNat]
  · rw [setFlagThenReg_reg_flag s hx]; exact flagByte_decide _

/-- Settles O42: the result and the flag are those of `aluShr` and `aluShl` on the old `V[x]`. -/
theorem shiftsInPlace : Obligations.ShiftsInPlace := by
  intro x y s
  refine ⟨⟨_, rfl, ?_, fun hx => ?_, effect_onlyChanges (.shr x y) s⟩,
    ⟨_, rfl, ?_, fun hx => ?_, effect_onlyChanges (.shl x y) s⟩⟩
  · rw [setFlagThenReg_reg_self, aluShr_result_toNat]
  · rw [setFlagThenReg_reg_flag s hx, aluShr_flag_toNat]
  · rw [setFlagThenReg_reg_self, aluShl_result_toNat]
  · rw [setFlagThenReg_reg_flag s hx, aluShl_flag_toNat]

/-- Settles O43: the masked byte is a true AND. -/
theorem randomByteIsMasked : Obligations.RandomByteIsMasked := by
  intro x kk s
  have hreg : ((s.setReg x (Config.rand s.draws &&& kk)).countDraw).reg x =
      Config.rand s.draws &&& kk := s.reg_setReg_self x _
  refine ⟨_, rfl, hreg, fun b hb => ?_, rfl, effect_onlyChanges (.rnd x kk) s⟩
  rw [hreg, BitVec.getLsbD_and, hb, Bool.and_false]

/-! ## Timers and the key-wait -/

/-- Settles O57: each of the three is one write of a register or a timer. -/
theorem timerTransfers : Obligations.TimerTransfers :=
  ⟨fun _ hop => decodeWord_of_eq_encode rfl (eq_encodeXKK_of_masked (hi := 0xF) (kk := 0x07) hop),
    fun _ hop => decodeWord_of_eq_encode rfl (eq_encodeXKK_of_masked (hi := 0xF) (kk := 0x15) hop),
    fun _ hop => decodeWord_of_eq_encode rfl (eq_encodeXKK_of_masked (hi := 0xF) (kk := 0x18) hop),
    fun x s =>
      ⟨⟨_, rfl, s.reg_setReg_self x _, effect_onlyChanges (.ldVxDT x) s⟩,
        ⟨_, rfl, rfl, effect_onlyChanges (.ldDTVx x) s⟩,
        ⟨_, rfl, rfl, effect_onlyChanges (.ldSTVx x) s⟩⟩⟩

/-- A held key with none lower is the lowest held key. -/
theorem lowestHeld_of_least {s : State} {k : Index} (hk : s.keys[k] = true)
    (hlow : ∀ j : Index, j < k → s.keys[j] = false) : s.lowestHeld = some k := by
  cases h : s.lowestHeld with
  | none => simp [lowestHeld_eq_none.1 h k] at hk
  | some m =>
    obtain ⟨hm, hleast⟩ := lowestHeld_eq_some h
    rcases lt_trichotomy m k with hlt | rfl | hlt
    · simp [hlow m hlt] at hm
    · rfl
    · simp [hleast k hlt] at hk

theorem exec_ldVxK_held {s : State} {k : Index} (x : Index) (h : s.lowestHeld = some k) :
    exec (.ldVxK x) s = .next (s.setReg x (BitVec.ofNat 8 k.val)) := by
  simp [exec, execLdVxK, h]

theorem exec_ldVxK_none {s : State} (x : Index) (h : s.lowestHeld = none) :
    exec (.ldVxK x) s = .next (s.setWait (some x)) := by
  simp [exec, execLdVxK, h]

/-- A key code fits a byte. -/
theorem index_byte_toNat (k : Index) : (BitVec.ofNat 8 k.val).toNat = k.val := by
  simp only [BitVec.toNat_ofNat]; omega

/-- Settles O58: the case split is on the lowest held key. -/
theorem waitForKey : Obligations.WaitForKey := by
  refine fun x s => ⟨fun k hk hlow => ?_, fun hnone => ?_⟩
  · refine ⟨_, exec_ldVxK_held x (lowestHeld_of_least hk hlow), ?_, onlyChanges_setReg s x _⟩
    rw [State.reg_setReg_self, index_byte_toNat]
  · exact ⟨_, exec_ldVxK_none x (lowestHeld_eq_none.2 hnone), rfl, onlyChanges_setWait s _⟩

end Sys2Proof.Machine

/-! # The single instructions: address register and memory transfers

The claims of spec/43_index_memory.md (R88 to R93) and of spec/20_memory.md about a store and the next fetch
(R43). -/

namespace Sys2Proof.Machine

/-! ## The address register -/

/-- Settles O45: the sum that fits is stored exactly, the other is the fault's `info`. -/
theorem addToAddressRegister : Obligations.AddToAddressRegister := by
  refine fun x s => ⟨fun hfits => ?_, fun hbig => exec_faults (if_pos hbig)⟩
  refine ⟨_, exec_of_no_fault (if_neg (by omega)), ?_, effect_onlyChanges (.addI x) s⟩
  simp only [effect, State.setI_I, BitVec.toNat_ofNat]
  omega

/-- Settles O46: the glyph number is the index that the check found. -/
theorem pointAtGlyph : Obligations.PointAtGlyph := by
  refine fun x s => ⟨fun d hd => ?_, fun hbig => exec_faults (if_pos hbig)⟩
  obtain rfl := eq_finOfNat hd
  refine ⟨_, exec_of_no_fault (if_neg (by omega)), rfl, fun hinv => ?_,
    effect_onlyChanges (.ldF x) s⟩
  rw [hd]
  exact hinv.fontOffset _

/-! ## Blocks of bytes -/

/-- Inside memory a stored block is read back byte by byte. -/
theorem byteAt_storeBytes_add (s : State) (a : Nat) (bs : List Byte)
    (h : a + bs.length ≤ 4096) {k : Nat} (hk : k < bs.length) :
    (s.storeBytes a bs).byteAt (a + k) = bs[k] := by
  simp [State.byteAt_storeBytes s a bs h, hk]

/-- After the store of a register block inside memory byte `k` of the block is `V[k]`. -/
theorem byteAt_storeBytes_regBlock {s : State} {x : Index} (h : s.I.toNat + x.val ≤ 4095)
    {k : Index} (hk : k ≤ x) :
    (s.storeBytes s.I.toNat (s.regBlock x)).byteAt (s.I.toNat + k.val) = s.reg k := by
  have hle : k.val ≤ x.val := hk
  have hlen : k.val < (s.regBlock x).length := by rw [regBlock_length]; omega
  have hfits : s.I.toNat + (s.regBlock x).length ≤ 4096 := by
    rw [regBlock_length]; omega
  rw [byteAt_storeBytes_add _ _ _ hfits hlen]
  have hget := regBlock_getElem? s x k.val
  rw [dif_pos hle, List.getElem?_eq_getElem hlen] at hget
  exact Option.some.inj hget

/-- Settles O47: the three bytes of `bcdDigits` are the decimal digits. -/
theorem storeDecimalDigits : Obligations.StoreDecimalDigits := by
  refine fun x s => ⟨fun hfits => ?_, fun hout => exec_faults (if_pos hout)⟩
  have hlt := (s.reg x).isLt
  have hread : ∀ k (hk : k < 3), ((effect (.ldB x) s).byteAt (s.I.toNat + k)).toNat =
      ((bcdDigits (s.reg x))[k]).toNat := fun k hk =>
    congrArg BitVec.toNat (byteAt_storeBytes_add s _ (bcdDigits (s.reg x)) (by simp; omega) hk)
  refine ⟨_, exec_of_no_fault (if_neg (by omega)), ?_, ?_, ?_, effect_onlyChanges (.ldB x) s⟩
  · refine (hread 0 (by omega)).trans ?_
    simp [bcdDigits]; omega
  · refine (hread 1 (by omega)).trans ?_
    simp [bcdDigits]; omega
  · refine (hread 2 (by omega)).trans ?_
    simp [bcdDigits]; omega

/-- Settles O48: the block stored is the registers in order. -/
theorem storeRegisterBlock : Obligations.StoreRegisterBlock :=
  fun x s => ⟨fun hfits => ⟨_, exec_of_no_fault (if_neg (by omega)),
      fun _ hk => byteAt_storeBytes_regBlock hfits hk, effect_onlyChanges (.storeRegs x) s⟩,
    fun hout => exec_faults (if_pos hout)⟩

theorem reg_loadBlock_of_le {s : State} {x k : Index} (hk : k ≤ x) :
    (s.loadBlock x).reg k = s.byteAt (s.I.toNat + k.val) := by
  rw [State.reg_loadBlock, if_pos hk]

/-- Settles O49: the registers up to `x` become the bytes in order. -/
theorem loadRegisterBlock : Obligations.LoadRegisterBlock :=
  fun x s => ⟨fun hfits => ⟨_, exec_of_no_fault (if_neg (by omega)),
      fun _ hk => reg_loadBlock_of_le hk, effect_onlyChanges (.loadRegs x) s⟩,
    fun hout => exec_faults (if_pos hout)⟩

theorem exec_storeRegs_inside {s : State} {x : Index} (h : s.I.toNat + x.val ≤ 4095) :
    exec (.storeRegs x) s = .next (s.storeBytes s.I.toNat (s.regBlock x)) :=
  exec_of_no_fault (if_neg (by omega))

/-- Settles O50: the load reads the bytes that the store wrote. -/
theorem storeThenLoadRestoresRegisters : Obligations.StoreThenLoadRestoresRegisters := by
  intro x s t u hfits hstore hI hbytes
  rw [exec_storeRegs_inside hfits] at hstore
  cases hstore
  have huI : u.I = s.I := hI
  refine ⟨_, exec_of_no_fault (if_neg (by rw [huI]; omega)), fun k hk => ?_⟩
  calc (u.loadBlock x).reg k
      = u.byteAt (u.I.toNat + k.val) := reg_loadBlock_of_le hk
    _ = (s.storeBytes s.I.toNat (s.regBlock x)).byteAt (s.I.toNat + k.val) := by rw [hbytes, huI]
    _ = s.reg k := byteAt_storeBytes_regBlock hfits hk

/-- Settles O51: the store leaves the dispatcher ready at the same `pc`, where the fetch reads the first two
registers. -/
theorem storeIsSeenByNextFetch : Obligations.StoreIsSeenByNextFetch := by
  intro x s t i hready hx hI hfits hstore hdec
  have hIx : s.I.toNat + x.val ≤ 4095 := by rw [hI]; exact hfits
  rw [exec_storeRegs_inside hIx] at hstore
  cases hstore
  have hfirst := byteAt_storeBytes_regBlock hIx (k := 0) (Fin.zero_le x)
  have hsecond := byteAt_storeBytes_regBlock hIx (k := 1) hx
  refine step_of_executes ⟨hready, show s.pc.toNat ≤ 4094 by omega, ?_⟩
  rw [← hdec, State.storeBytes_pc, ← hI, ← hfirst, ← hsecond]
  rfl

end Sys2Proof.Machine

/-! # The single instructions: display

The claims of spec/44_display.md: CLS (R95), and DRW as one XOR with a set of cells (R96 to R98). The key fact
is that a sprite of at most 32 rows of 8 columns falls on no cell twice, so that each pixel of the drawing sees
the framebuffer's old value. -/

namespace Sys2Proof.Machine

/-! ## Clearing the screen -/

theorem notifyIf_notify (s : State) (c : Bool) : (s.notifyIf c).notify = (s.notify || c) := by
  rw [State.notifyIf_eq]

theorem notifyIf_redrawPending (s : State) (c : Bool) :
    (s.notifyIf c).redrawPending = (s.redrawPending || c) := by
  rw [State.notifyIf_eq]

theorem notifyIf_fb (s : State) (c : Bool) : (s.notifyIf c).fb = s.fb := by
  rw [State.notifyIf_eq]

theorem notifyIf_reg (s : State) (c : Bool) (r : Index) : (s.notifyIf c).reg r = s.reg r := by
  rw [State.notifyIf_eq]; rfl

theorem effect_cls_of_blank {s : State} (h : s.fb = Framebuffer.blank) : effect .cls s = s := by
  have hsame : s.setFb Framebuffer.blank = s := by rw [← h]; rfl
  rw [effect, hsame, h, bne_self_eq_false]
  rfl

/-- Settles O52: the notification is raised exactly when the framebuffer is not blank. -/
theorem clearScreen : Obligations.ClearScreen := by
  refine ⟨fun op => ⟨fun h => (encodeOfDecodeGivesWord op _ h).2.symm, ?_⟩,
    fun s => ⟨effect .cls s, exec_of_no_fault rfl, fun j => ?_, fun hset => ?_, fun hclear => ?_⟩⟩
  · rintro rfl; decide
  · rw [effect, notifyIf_fb]; exact Framebuffer.cell_blank j
  · have hne : (s.fb != Framebuffer.blank) = true := (Framebuffer.ne_blank_iff s.fb).2 hset
    refine ⟨?_, ?_, effect_onlyChanges .cls s⟩
    · rw [effect, notifyIf_notify, hne, Bool.or_true]
    · rw [effect, notifyIf_redrawPending, hne, Bool.or_true]
  · have hblank : s.fb = Framebuffer.blank :=
      Framebuffer.ext_cell fun j hj => (hclear j hj).trans (Framebuffer.cell_blank j).symm
    rw [effect_cls_of_blank hblank]
    exact OnlyChanges.refl _ s

/-! ## Drawing as XOR with a set of cells -/

/-- The canvas `c` is the framebuffer `f` XORed with the cells `M`, with R96's two flags as R98 (b) and (c)
give them. -/
structure Drawn (f : Framebuffer) (M : Set Nat) (c : Canvas) : Prop where
  cell : ∀ j, c.fb.cell j = true ↔ Xor (f.cell j = true) (j ∈ M)
  collision : c.collision = true ↔ ∃ j ∈ M, f.cell j = true
  changed : c.changed = true ↔ M.Nonempty

theorem Drawn.start (f : Framebuffer) : Drawn f ∅ ⟨f, false, false⟩ := by
  constructor <;> simp [Xor]

/-- One more pixel, on a cell that the drawing has not touched. -/
theorem Drawn.flip {f : Framebuffer} {M : Set Nat} {c : Canvas} (h : Drawn f M c) {j : Nat}
    (hj : j < 2048) (hnew : j ∉ M) : Drawn f (insert j M) (c.flip j) := by
  have hold : c.fb.cell j = f.cell j := by
    rw [Bool.eq_iff_iff, h.cell j]; simp [Xor, hnew]
  constructor
  · intro k
    have hk := h.cell k
    by_cases hkj : k = j
    · subst hkj
      simp [Canvas.flip, Framebuffer.cell_flip, hold, hj, Xor]
    · simp [Canvas.flip, Framebuffer.cell_flip, hkj, hk]
  · simp [Canvas.flip, hold, h.collision, or_comm]
  · simp [Canvas.flip]

/-- The cells under the 1 bits of the first `n` columns of a sprite row. -/
def rowCells (vx vy : Byte) (row : Nat) (b : Byte) (n : Nat) : Set Nat :=
  {j | ∃ col < n, spriteBit b col = true ∧ j = spriteCell vx vy row col}

theorem spriteCell_lt (vx vy : Byte) (row col : Nat) : spriteCell vx vy row col < 2048 := by
  unfold spriteCell cellIndex; omega

/-- Two pixels on one cell are the same pixel: 8 columns are fewer than 64 and the rows fewer than 32. -/
theorem spriteCell_inj {vx vy : Byte} {row row' col col' : Nat} (hr : row < 32) (hr' : row' < 32)
    (hc : col < 8) (hc' : col' < 8)
    (h : spriteCell vx vy row col = spriteCell vx vy row' col') : row = row' ∧ col = col' := by
  unfold spriteCell cellIndex at h
  omega

theorem rowCells_succ (vx vy : Byte) (row : Nat) (b : Byte) (n : Nat) :
    rowCells vx vy row b (n + 1) =
      if spriteBit b n then insert (spriteCell vx vy row n) (rowCells vx vy row b n)
      else rowCells vx vy row b n := by
  have hsplit : ∀ j, j ∈ rowCells vx vy row b (n + 1) ↔
      j ∈ rowCells vx vy row b n ∨ (spriteBit b n = true ∧ j = spriteCell vx vy row n) :=
    fun j => Nat.exists_lt_succ_right
  ext j
  rw [hsplit]
  split
  · next hb => simp [hb, or_comm]
  · next hb => simp [hb]

/-- The first `n` columns of a row, over a drawing that has touched none of the row's cells. -/
theorem Drawn.columns {f : Framebuffer} {M : Set Nat} {c : Canvas} (h : Drawn f M c)
    {vx vy : Byte} {row : Nat} (b : Byte) (hrow : row < 32)
    (hnew : ∀ col < 8, spriteCell vx vy row col ∉ M) {n : Nat} (hn : n ≤ 8) :
    Drawn f (M ∪ rowCells vx vy row b n) ((List.range n).foldl (init := c) fun c col =>
      if spriteBit b col then c.flip (spriteCell vx vy row col) else c) := by
  induction n with
  | zero => simpa [rowCells] using h
  | succ n ih =>
    have ih := ih (by omega)
    rw [List.range_succ, List.foldl_append, List.foldl_cons, List.foldl_nil, rowCells_succ]
    split
    · rw [Set.union_insert]
      refine ih.flip (spriteCell_lt vx vy row n) ?_
      rintro (hM | ⟨col, hcol, -, heq⟩)
      · exact hnew n (by omega) hM
      · have := (spriteCell_inj hrow hrow (by omega) (by omega) heq).2
        omega
    · exact ih

theorem inSprite_succ (s : State) (vx vy : Byte) (base n : Nat) :
    {j | InSprite s vx vy base (n + 1) j} =
      {j | InSprite s vx vy base n j} ∪ rowCells vx vy n (s.byteAt (base + n)) 8 := by
  ext j
  exact Nat.exists_lt_succ_right

/-- R98 (a) to (c): a sprite of at most 32 rows. By induction on the rows: no cell of a row lies in an
earlier one. -/
theorem drawSprite_drawn (s : State) (vx vy : Byte) (base : Nat) {n : Nat} (hn : n ≤ 32) :
    Drawn s.fb {j | InSprite s vx vy base n j} (s.drawSprite vx vy base n) := by
  induction n with
  | zero => simpa [InSprite, State.drawSprite] using Drawn.start s.fb
  | succ n ih =>
    rw [inSprite_succ, State.drawSprite, List.range_succ, List.foldl_append, List.foldl_cons,
      List.foldl_nil]
    refine (ih (by omega)).columns (s.byteAt (base + n)) (by omega) ?_ (Nat.le_refl 8)
    rintro col hcol ⟨row, hrow, col', hcol', -, heq⟩
    have := (spriteCell_inj (by omega) (by omega) hcol hcol' heq).1
    omega

/-! ## The draw instruction -/

theorem faultOf_drw_eq_none {s : State} {n : Nat} (x y : Index)
    (h : n = 0 ∨ s.I.toNat + n - 1 ≤ 4095) : faultOf (.drw x y n) s = none := by
  rw [faultOf, if_neg (by omega)]

theorem effect_drw_fb (x y : Index) (n : Nat) (s : State) :
    (effect (.drw x y n) s).fb = (s.drawSprite (s.reg x) (s.reg y) s.I.toNat n).fb :=
  notifyIf_fb _ _

theorem effect_drw_flag (x y : Index) (n : Nat) (s : State) :
    (effect (.drw x y n) s).reg 15 =
      flagByte (s.drawSprite (s.reg x) (s.reg y) s.I.toNat n).collision :=
  (notifyIf_reg _ _ _).trans (State.reg_setReg_self _ _ _)

theorem effect_drw_notify (x y : Index) (n : Nat) (s : State) :
    (effect (.drw x y n) s).notify =
      (s.notify || (s.drawSprite (s.reg x) (s.reg y) s.I.toNat n).changed) :=
  notifyIf_notify _ _

theorem effect_drw_redrawPending (x y : Index) (n : Nat) (s : State) :
    (effect (.drw x y n) s).redrawPending =
      (s.redrawPending || (s.drawSprite (s.reg x) (s.reg y) s.I.toNat n).changed) :=
  notifyIf_redrawPending _ _

theorem flagByte_eq_one {c : Bool} : flagByte c = 1 ↔ c = true := by
  cases c <;> decide

theorem flagByte_eq_one_or_zero (c : Bool) : flagByte c = 1 ∨ flagByte c = 0 := by
  cases c <;> decide

/-- Settles O53: the canvas of the draw is `Drawn` with the sprite's cells. -/
theorem drawXorsSprite : Obligations.DrawXorsSprite := by
  intro x y n s hn hfits
  have hdrawn := drawSprite_drawn s (s.reg x) (s.reg y) s.I.toNat (n := n) (by omega)
  refine ⟨_, exec_of_no_fault (faultOf_drw_eq_none x y hfits), fun j => ?_, ?_, ?_, ?_, ?_,
    effect_onlyChanges (.drw x y n) s⟩
  · rw [effect_drw_fb]
    exact hdrawn.cell j
  · rw [effect_drw_flag]
    exact flagByte_eq_one_or_zero _
  · rw [effect_drw_flag, flagByte_eq_one]
    exact hdrawn.collision
  · rw [effect_drw_notify, Bool.or_eq_true, hdrawn.changed]
    rfl
  · rw [effect_drw_redrawPending, Bool.or_eq_true, hdrawn.changed]
    rfl

theorem inSprite_congr {s t : State} (h : ∀ a, t.byteAt a = s.byteAt a) (vx vy : Byte)
    (base n j : Nat) : InSprite t vx vy base n j ↔ InSprite s vx vy base n j := by
  simp only [InSprite, h]

/-- Settles O54: the second draw is of the same sprite at the same place, over the framebuffer that the first
left. -/
theorem drawTwiceRestores : Obligations.DrawTwiceRestores := by
  intro x y n s hn hfits hx hy
  obtain ⟨t, ht, hcell, -, -, -, -, hframe⟩ := drawXorsSprite x y n s hn hfits
  have hI : t.I = s.I := hframe .I (by simp)
  have hVx : t.reg x = s.reg x := hframe (.V x) (by simp [hx])
  have hVy : t.reg y = s.reg y := hframe (.V y) (by simp [hy])
  have hbyte : ∀ a, t.byteAt a = s.byteAt a := fun a => hframe (.byte a) (by simp)
  obtain ⟨u, hu, hcell', -, hflag, -, -, -⟩ := drawXorsSprite x y n t hn (by rwa [hI])
  simp only [hI, hVx, hVy, inSprite_congr hbyte] at hcell' hflag
  refine ⟨t, u, ht, hu, Framebuffer.ext_cell fun j _ => ?_, hflag.trans ?_⟩
  · rw [Bool.eq_iff_iff, hcell' j, hcell j]
    unfold Xor
    tauto
  · refine exists_congr fun j => and_congr_right fun hj => ?_
    rw [hcell j, ← Bool.not_eq_true]
    simp [Xor, hj]

/-- Settles O55: a fault draws nothing. -/
theorem drawOutOfRangeFaults : Obligations.DrawOutOfRangeFaults :=
  fun _ _ _ _ hn hout => exec_faults (if_pos ⟨hn, hout⟩)

end Sys2Proof.Machine

/-! # What no step reads: the sound timer, the redraw latch and the schedule

Every step is a function of the other cells: it writes the sound timer as a function of the sound timer and the
latch as a function of the latch, and it hands the rest of the schedule on (spec/10_state.md R16, R24,
spec/40_cycle.md R56). Noninterference of the first two and the run of an interleaving on a listing schedule
both follow. -/

namespace Sys2Proof.Machine

/-! ## Overlaying the three cells -/

/-- The state with other values of the sound timer, the redraw latch and the schedule. -/
def State.overlay (s : State) (v : Byte) (b : Bool) (l : List Transaction) : State :=
  { s with ST := v, redrawPending := b, schedule := l }

theorem overlay_self (s : State) : s.overlay s.ST s.redrawPending s.schedule = s := rfl

theorem overlay_onlyChanges (s : State) (v v' : Byte) (b b' : Bool) (l : List Transaction) :
    OnlyChanges {.ST, .redrawPending} (s.overlay v b l) (s.overlay v' b' l) := by
  intro c hc
  cases c with
  | ST | redrawPending => simp at hc
  | _ => rfl

/-- From `s`, whatever the three cells hold, `phase` answers one state, but that the sound timer is a function
of the sound timer, the latch of the latch, and the schedule stays. -/
def Blind (phase : State → Host.Outcome State Fault Refusal) (s : State) : Prop :=
  ∃ (t : State) (f : Byte → Byte) (g : Bool → Bool),
    ∀ v b l, phase (s.overlay v b l) = .next (t.overlay (f v) (g b) l)

/-- The usual case: the three cells are not written either. -/
theorem Blind.of_keep {phase : State → Host.Outcome State Fault Refusal} {s : State} (t : State)
    (h : ∀ v b l, phase (s.overlay v b l) = .next (t.overlay v b l)) : Blind phase s :=
  ⟨t, id, id, h⟩

/-! ## Every phase is blind -/

theorem overlay_notifyIf (s : State) (c : Bool) (v : Byte) (b : Bool) (l : List Transaction) :
    (s.overlay v b l).notifyIf c = (s.notifyIf c).overlay v (b || c) l := by
  rw [State.notifyIf_eq, State.notifyIf_eq]; rfl

theorem overlay_skipIf (s : State) (c : Bool) (v : Byte) (b : Bool) (l : List Transaction) :
    (s.overlay v b l).skipIf c = (s.skipIf c).overlay v b l := by
  rw [State.skipIf_eq, State.skipIf_eq]; rfl

theorem faultOf_overlay (i : Instr) (s : State) (v : Byte) (b : Bool) (l : List Transaction) :
    faultOf i (s.overlay v b l) = faultOf i s := by
  cases i <;> rfl

/-- Only CLS and DRW touch the latch and only LD ST,Vx the sound timer, each as `Blind` allows. -/
theorem effect_blind (i : Instr) (s : State) : Blind (fun s => .next (effect i s)) s := by
  have keep : (∀ v b l, effect i (s.overlay v b l) = (effect i s).overlay v b l) →
      Blind (fun s => .next (effect i s)) s :=
    fun h => .of_keep (effect i s) fun v b l => congrArg Host.Outcome.next (h v b l)
  cases i with
  | cls =>
    exact ⟨effect .cls s, id, (· || s.fb != Framebuffer.blank), fun v b l =>
      congrArg Host.Outcome.next (overlay_notifyIf (s.setFb Framebuffer.blank) _ v b l)⟩
  | drw x y n =>
    let c := s.drawSprite (s.reg x) (s.reg y) s.I.toNat n
    exact ⟨effect (.drw x y n) s, id, (· || c.changed), fun v b l =>
      congrArg Host.Outcome.next
        (overlay_notifyIf ((s.setFb c.fb).setReg flagIndex (flagByte c.collision)) _ v b l)⟩
  | seImm | sneImm | seReg | sneReg | skp | sknp => exact keep fun v b l => overlay_skipIf s _ v b l
  | ldSTVx x => exact ⟨s, fun _ => s.reg x, id, fun _ _ _ => rfl⟩
  | ldVxK x =>
    have hread : ∀ v b l, (s.overlay v b l).lowestHeld = s.lowestHeld := fun _ _ _ => rfl
    refine keep fun v b l => ?_
    simp only [effect, hread]
    cases s.lowestHeld <;> rfl
  | _ => exact keep fun _ _ _ => rfl

theorem exec_blind (i : Instr) (s : State) : Blind (exec i) s := by
  cases h : faultOf i s with
  | some r =>
    refine .of_keep (s.setFault r.cause r.info) fun v b l => ?_
    rw [exec_of_fault ((faultOf_overlay i s v b l).trans h)]
    rfl
  | none =>
    obtain ⟨t, f, g, ht⟩ := effect_blind i s
    refine ⟨t, f, g, fun v b l => ?_⟩
    rw [exec_of_no_fault ((faultOf_overlay i s v b l).trans h)]
    exact ht v b l

theorem fetchAndExecute_blind (s : State) : Blind fetchAndExecute s := by
  by_cases hpc : 4094 < s.pc.toNat
  · refine .of_keep (s.setFault .memIndex (max s.pc.toNat 4096)) fun v b l => ?_
    rw [fetchAndExecute_eq]
    exact if_pos hpc
  · have hfetch : ∀ v b l, fetchAndExecute (s.overlay v b l) =
        match decodeWord s.fetchWord with
        | .ok i => exec i (s.advance.overlay v b l)
        | .error _ => .next ((s.advance.setFault .unknownOpcode s.fetchWord.toNat).overlay v b l) :=
      fun v b l => (fetchAndExecute_eq _).trans (if_neg hpc)
    cases hdec : decodeWord s.fetchWord with
    | ok i =>
      obtain ⟨t, f, g, ht⟩ := exec_blind i s.advance
      exact ⟨t, f, g, fun v b l => by rw [hfetch, hdec]; exact ht v b l⟩
    | error r => exact .of_keep _ fun v b l => by rw [hfetch, hdec]

theorem waitStep_overlay (x : Index) (s : State) (v : Byte) (b : Bool) (l : List Transaction) :
    waitStep x (s.overlay v b l) = (waitStep x s).overlay v b l := by
  have hqueue : (s.overlay v b l).queue = s.queue := rfl
  simp only [waitStep, hqueue]
  cases s.queue with
  | nil => rfl
  | cons e rest => cases he : e.pressed <;> simp only [he] <;> rfl

theorem drain_overlay (s : State) (v : Byte) (b : Bool) (l : List Transaction) :
    (s.overlay v b l).drain = s.drain.overlay v b l := by
  rw [drain_eq, drain_eq]; rfl

theorem dispatcherStep_blind (s : State) : Blind dispatcherStep s := by
  cases hf : s.fault with
  | some r =>
    exact .of_keep s.beginStep fun v b l => dispatcherStep_halted (s := s.overlay v b l) hf
  | none =>
    cases hw : s.wait with
    | some x =>
      refine .of_keep (waitStep x s.beginStep) fun v b l => ?_
      rw [dispatcherStep_waiting (s := s.overlay v b l) hf hw]
      exact congrArg _ (waitStep_overlay x s.beginStep v b l)
    | none =>
      obtain ⟨t, f, g, ht⟩ := fetchAndExecute_blind s.beginStep.drain
      refine ⟨t, f, g, fun v b l => ?_⟩
      rw [dispatcherStep_running (s := s.overlay v b l) hf hw, ← ht, ← drain_overlay]
      rfl

theorem transact_blind (tr : Transaction) (s : State) : Blind (transact tr) s := by
  cases tr with
  | reset => exact ⟨s.resetCells, fun _ => 0, fun _ => false, fun _ _ _ => rfl⟩
  | load image =>
    refine .of_keep (s.load image) fun v b l => congrArg Host.Outcome.next ?_
    by_cases h : s.boot = .fresh
    · rw [load_fresh h, load_fresh (s := s.overlay v b l) h]; rfl
    · rw [load_not_fresh h, load_not_fresh (s := s.overlay v b l) h]
  | step => exact dispatcherStep_blind s
  | tick => exact ⟨s.tick, countDown, id, fun _ _ _ => rfl⟩
  | channelFail =>
    refine .of_keep s.channelFail fun v b l => congrArg Host.Outcome.next ?_
    have hfault : (s.overlay v b l).fault = s.fault := rfl
    simp only [channelFail_eq, hfault]
    split <;> rfl
  | redrawAck => exact ⟨s.redrawAck, id, fun _ => false, fun _ _ _ => rfl⟩
  | keyEvent e => exact .of_keep (s.enqueue e) fun _ _ _ => rfl
  | fbRead j => exact .of_keep s fun _ _ _ => rfl

/-- Settles O59: both steps are the blind transaction on overlays of one state. -/
theorem soundTimerAndLatchAreUnread : Obligations.SoundTimerAndLatchAreUnread := by
  intro s t v b hstep
  obtain ⟨u, f, g, hu⟩ := transact_blind s.nextUp s
  have hs : step s = .next (u.overlay (f s.ST) (g s.redrawPending) s.schedule.tail) :=
    hu s.ST s.redrawPending s.schedule.tail
  have hs' : step { s with ST := v, redrawPending := b } =
      .next (u.overlay (f v) (g b) s.schedule.tail) := hu v b s.schedule.tail
  rw [hs] at hstep
  cases hstep
  exact ⟨_, hs', overlay_onlyChanges u _ _ _ _ _⟩

/-! # Interleavings

The claims of spec/40_cycle.md R56 and spec/70_reset_and_hazards.md R134. -/

/-! ## Runs exist -/

/-- R8, R122: every transaction is answered in every state. -/
theorem transact_total (tr : Transaction) (s : State) : ∃ t, transact tr s = .next t := by
  obtain ⟨t, f, g, ht⟩ := transact_blind tr s
  exact ⟨_, ht s.ST s.redrawPending s.schedule⟩

/-- The state after a transaction; that one is always answered is `transact_eq_after`. -/
def State.after (s : State) (tr : Transaction) : State :=
  match transact tr s with
  | .next t => t
  | .fault _ => s
  | .refused _ => s

theorem transact_eq_after (tr : Transaction) (s : State) : transact tr s = .next (s.after tr) := by
  obtain ⟨t, ht⟩ := transact_total tr s
  rw [State.after, ht]

/-- The run of an interleaving from a state. -/
def runOf (σ : Interleaving) (s : State) : Nat → State
  | 0 => s
  | n + 1 => (runOf σ s n).after (σ n)

theorem runOf_isRun (σ : Interleaving) (s : State) : IsRun σ (runOf σ s) := fun n =>
  transact_eq_after (σ n) (runOf σ s n)

/-! ## A finite part of a run is a run of `step` -/

/-- A transaction hands the schedule on, whatever it lists. -/
theorem transact_schedule {tr : Transaction} {s t : State} (h : transact tr s = .next t)
    (l : List Transaction) :
    transact tr { s with schedule := l } = .next { t with schedule := l } := by
  obtain ⟨u, f, g, hu⟩ := transact_blind tr s
  have hs := hu s.ST s.redrawPending s.schedule
  rw [overlay_self, h] at hs
  cases hs
  exact hu s.ST s.redrawPending l

theorem step_listed {tr : Transaction} {s t : State} (h : transact tr s = .next t)
    (l : List Transaction) :
    step { s with schedule := tr :: l } = .next { t with schedule := l } :=
  (step_of_schedule rfl).trans (transact_schedule h l)

/-- By induction on the number of steps, over all interleavings and runs: the first step leaves the run of the
interleaving from its second place on. -/
theorem core_run_of_isRun {σ : Interleaving} {run : Nat → State} (h : IsRun σ run) (n : Nat)
    (rest : List Transaction) :
    core.run n { run 0 with schedule := (List.range n).map σ ++ rest } =
      .next { run n with schedule := rest } := by
  induction n generalizing σ run with
  | zero => rfl
  | succ n ih =>
    have htail : IsRun (fun k => σ (k + 1)) (fun k => run (k + 1)) := fun k => h (k + 1)
    rw [List.range_succ_eq_map, List.map_cons, List.map_map, List.cons_append,
      core_run_succ (step_listed (h 0) _)]
    exact ih htail

/-! ## A fair run exists -/

/-- A `Step` and a `Tick` in turn. -/
def alternating : Interleaving := fun n => if n % 2 = 0 then .step else .tick

theorem alternating_fairRun (s : State) : FairRun alternating (runOf alternating s) where
  isRun := runOf_isRun alternating s
  step := fun n _ => ⟨2 * n, by omega, by simp [alternating]⟩
  tick := fun n _ => ⟨2 * n + 1, by omega, by simp [alternating]⟩

/-- Settles O60. -/
theorem everyInterleavingRuns : Obligations.EveryInterleavingRuns :=
  ⟨fun σ s => ⟨runOf σ s, rfl, runOf_isRun σ s⟩,
    fun _ _ n rest h => core_run_of_isRun h n rest,
    fun s => ⟨alternating, runOf alternating s, rfl, alternating_fairRun s⟩⟩

end Sys2Proof.Machine

/-! # The invariant

The claims of spec/10_state.md R27: every step of every agent keeps `Inv`. An invariant speaks of six cells;
a step that leaves them alone keeps it, and each operation that writes one of them has its lemma. -/

namespace Sys2Proof.Machine

/-! ## The operations -/

/-- The cells that the invariant speaks of. -/
structure InvCells where
  mem : List Host.Cell
  sp : Word
  stack : Vector Word 16
  pc : Word
  fontOffset : Vector Word 16
  fault : Option FaultRecord

def State.invCells (s : State) : InvCells := ⟨s.mem, s.sp, s.stack, s.pc, s.fontOffset, s.fault⟩

theorem Inv.of_invCells_eq {s t : State} (h : Inv s) (e : t.invCells = s.invCells) : Inv t := by
  have hmem : t.mem = s.mem := congrArg InvCells.mem e
  have hsp : t.sp = s.sp := congrArg InvCells.sp e
  have hstack : t.stack = s.stack := congrArg InvCells.stack e
  have hpc : t.pc = s.pc := congrArg InvCells.pc e
  have hfont : t.fontOffset = s.fontOffset := congrArg InvCells.fontOffset e
  have hfault : t.fault = s.fault := congrArg InvCells.fault e
  constructor
  · rw [hmem]; exact h.memory
  · rw [hsp]; exact h.sp
  · rw [hstack]; exact h.stackZero
  · rw [hstack]; exact h.stackEntries
  · rw [hpc]; exact h.pc
  · rw [hfont]; exact h.fontOffset
  · rw [hfault]; exact h.faultInfo

variable {s : State}

theorem Inv.setPc (h : Inv s) {w : Word} (hw : w.toNat ≤ 0x10FE) : Inv (s.setPc w) :=
  ⟨h.memory, h.sp, h.stackZero, h.stackEntries, hw, h.fontOffset, h.faultInfo⟩

theorem Inv.setFault (h : Inv s) (k : FaultCause) {n : Nat} (hn : n < 2 ^ 17) :
    Inv (s.setFault k n) := by
  refine ⟨h.memory, h.sp, h.stackZero, h.stackEntries, h.pc, h.fontOffset, fun r hr => ?_⟩
  cases hr
  exact hn

theorem Inv.storeBytes (h : Inv s) (a : Nat) (bs : List Byte) : Inv (s.storeBytes a bs) :=
  ⟨Memory.writeAll_wf h.memory a bs, h.sp, h.stackZero, h.stackEntries, h.pc, h.fontOffset,
    h.faultInfo⟩

/-- A push goes above the entry 0 and stays on the stack. -/
theorem Inv.push (h : Inv s) {j : Index} {w : Word} (hj : j.val = s.sp.toNat + 1)
    (hw : w.toNat ≤ 4096) : Inv (s.push j w) := by
  have hlt := j.isLt
  have hzero : j.val ≠ (0 : Index).val := by rw [hj]; exact Nat.succ_ne_zero _
  refine ⟨h.memory, ?_, ?_, fun k => ?_, h.pc, h.fontOffset, h.faultInfo⟩
  · rw [State.push_sp, sp_add_one_toNat (by omega)]; omega
  · rw [State.push_stack]
    exact (Vector.getElem_set_ne _ _ hzero).trans h.stackZero
  · rw [State.push_stack]
    by_cases hk : j.val = k.val
    · obtain rfl : j = k := Fin.ext hk
      simpa using hw
    · simpa [Vector.getElem_set_ne, hk] using h.stackEntries k

/-- A pop takes `pc` from the stack, whose entries are at most 4096. -/
theorem Inv.pop (h : Inv s) (j : Index) (hpos : 0 < s.sp.toNat) : Inv (s.pop j) := by
  have hsp := h.sp
  have hpc := h.stackEntries j
  have hpop := sp_sub_one_toNat hpos
  refine ⟨h.memory, ?_, h.stackZero, h.stackEntries, ?_, h.fontOffset, h.faultInfo⟩
  · rw [State.pop_sp]; omega
  · rw [State.pop_pc]; omega

theorem Inv.skipIf (h : Inv s) (hpc : s.pc.toNat ≤ 4096) (c : Bool) : Inv (s.skipIf c) := by
  rw [State.skipIf_eq]
  refine h.setPc ?_
  split
  · rw [BitVec.toNat_add]; simp only [BitVec.ofNat_eq_ofNat, BitVec.toNat_ofNat]; omega
  · exact h.pc

theorem Inv.setFb (h : Inv s) (f : Framebuffer) : Inv (s.setFb f) := h.of_invCells_eq rfl

theorem Inv.setReg (h : Inv s) (x : Index) (b : Byte) : Inv (s.setReg x b) := h.of_invCells_eq rfl

theorem Inv.notifyIf (h : Inv s) (c : Bool) : Inv (s.notifyIf c) :=
  h.of_invCells_eq (by rw [State.notifyIf_eq]; rfl)

/-! ## The instructions -/

/-- The offending value of every fault fits 17 bits: the widest is the sum of ADD I,Vx (R23). -/
theorem faultOf_info_lt {i : Instr} {r : FaultRecord} (h : faultOf i s = some r) :
    r.info < 2 ^ 17 := by
  have hsp := s.sp.isLt
  have hI := s.I.isLt
  cases i with
  | ret | call | ldB | storeRegs | loadRegs | drw =>
    simp only [faultOf, Option.ite_none_right_eq_some, Option.some.injEq] at h
    obtain ⟨-, rfl⟩ := h
    simp only; omega
  | skp x | sknp x | ldF x | addI x =>
    have hx := (s.reg x).isLt
    simp only [faultOf, Option.ite_none_right_eq_some, Option.some.injEq] at h
    obtain ⟨-, rfl⟩ := h
    simp only; omega
  | _ => cases h

/-- The effect of every instruction keeps the invariant, from a `pc` that a fetch has advanced. -/
theorem Inv.effect (h : Inv s) (hpc : s.pc.toNat ≤ 4096) (i : Instr)
    (hfault : faultOf i s = none) : Inv (effect i s) := by
  cases i with
  | ret =>
    refine h.pop _ (Nat.pos_of_ne_zero fun hzero => ?_)
    simp [faultOf, hzero] at hfault
  | call nnn =>
    have hsp : s.sp.toNat + 1 ≤ 15 := by
      by_contra hn
      rw [faultOf, if_pos (by omega)] at hfault
      cases hfault
    have hnnn := nnn.isLt
    refine (h.push ?_ hpc).setPc (by rw [zext16_toNat]; omega)
    simp only [Fin.val_ofNat]; omega
  | jp nnn =>
    have hnnn := nnn.isLt
    exact h.setPc (by rw [zext16_toNat]; omega)
  | jpV0 nnn =>
    have hnnn := nnn.isLt
    have hV0 := (s.reg 0).isLt
    exact h.setPc (by rw [zext16_add_byte_toNat]; omega)
  | seImm | sneImm | seReg | sneReg | skp | sknp => exact h.skipIf hpc _
  | ldB | storeRegs => exact h.storeBytes _ _
  | cls => exact (h.setFb _).notifyIf _
  | drw => exact ((h.setFb _).setReg _ _).notifyIf _
  | ldVxK x =>
    simp only [Machine.effect]
    cases s.lowestHeld <;> exact h.of_invCells_eq rfl
  | _ => exact h.of_invCells_eq rfl

/-! ## The steps -/

theorem Inv.drained (h : Inv s) : Inv (drained s) :=
  h.of_invCells_eq (by rw [drained_eq]; rfl)

theorem Inv.fetched (h : Inv s) (hpc : s.pc.toNat ≤ 4094) : Inv (fetched s) := by
  rw [← drained_advance]
  refine h.drained.setPc ?_
  rw [drained_pc, show s.pc + 2 = (Machine.fetched s).pc from rfl, fetched_pc_toNat hpc]
  omega

theorem Inv.waitStep (h : Inv s) (x : Index) : Inv (waitStep x s) := by
  unfold Machine.waitStep
  split
  · exact h
  · split <;> exact h.of_invCells_eq rfl

theorem Inv.load (h : Inv s) (image : List Byte) : Inv (s.load image) := by
  by_cases hb : s.boot = .fresh
  · rw [load_fresh hb]
    exact (h.storeBytes 0x200 (image.take 3584)).of_invCells_eq rfl
  · rwa [load_not_fresh hb]

theorem Inv.channelFail (h : Inv s) : Inv s.channelFail := by
  rw [channelFail_eq]
  split
  · exact h.setFault .channelBroken (by decide)
  · exact h

/-- Settles O16. -/
theorem resetStateMeetsInvariant : Obligations.ResetStateMeetsInvariant :=
  ⟨Memory.reset_wf, by decide, by decide, by decide, by decide, by decide, fun _ hr => by cases hr⟩

/-- Settles O17: the case split is on what a step can be. -/
theorem everyStepKeepsInvariant : Obligations.EveryStepKeepsInvariant := by
  intro s t h hstep
  have htaken : Inv s.takeNext := h.of_invCells_eq rfl
  cases stepTo_of_step hstep with
  | reset => exact Inv.of_invCells_eq resetStateMeetsInvariant rfl
  | load image => exact htaken.load image
  | channelFail => exact htaken.channelFail
  | tick | keyEvent | fbRead | redrawAck | halted => exact h.of_invCells_eq rfl
  | waiting x => exact Inv.waitStep (s := s.takeNext.beginStep) (h.of_invCells_eq rfl) x
  | fetchFault => exact h.drained.setFault _ (by have := s.pc.isLt; omega)
  | illegal _ hpc => exact (h.fetched hpc).setFault _ (by have := (wordAtPc s).isLt; omega)
  | faulted i r hi hfault => exact (h.fetched hi.pc_le).setFault _ (faultOf_info_lt hfault)
  | executed i hi hfault =>
    have hpc := hi.pc_le
    exact (h.fetched hpc).effect (by rw [fetched_pc_toNat hpc]; omega) i hfault

end Sys2Proof.Machine

/-! # The dispatcher's step, faults and reset

The claims of spec/40_cycle.md R57 to R61, of spec/60_exceptions.md R106 to R111 and of
spec/70_reset_and_hazards.md R123, read off `step_of_executes` and its companions, `exec_eq` and `StepTo`. -/

namespace Sys2Proof.Machine

/-! ## Fetch and execute -/

/-- Settles O6. -/
theorem stepRunsDecodedInstruction : Obligations.StepRunsDecodedInstruction :=
  fun _ _ hready hpc hdec => step_of_executes ⟨hready, hpc, hdec⟩

/-- The drained state differs from the fetched one in `pc` alone. -/
theorem onlyChanges_fetched_drained (s : State) : OnlyChanges {.pc} (fetched s) (drained s) := by
  rw [drained_eq]
  intro c hc
  cases c with
  | pc => simp at hc
  | _ => rfl

/-- Settles O8: the step faults on the drained state, before the advance. -/
theorem fetchOutOfRangeFaults : Obligations.FetchOutOfRangeFaults := by
  intro s hready hpc
  refine ⟨_, step_of_ready_of_pc_gt hready hpc, rfl, drained_pc s, ?_⟩
  refine ((onlyChanges_fetched_drained s).trans (onlyChanges_setFault _ _ _)).mono ?_
  rintro c (rfl | rfl) <;> simp

/-- Settles O11. -/
theorem everyStepAnswersNext : Obligations.EveryStepAnswersNext :=
  fun s => transact_total s.nextUp s.takeNext

/-! ## The key-wait -/

theorem waitStep_of_nil {s : State} (x : Index) (h : s.queue = []) : waitStep x s = s := by
  simp [waitStep, h]

theorem waitStep_of_press {s : State} {e : KeyEvent} {rest : List KeyEvent} (x : Index)
    (h : s.queue = e :: rest) (he : e.pressed = true) :
    waitStep x s =
      (((s.applyKey e).setQueue rest).setReg x (BitVec.ofNat 8 e.code.val)).setWait none := by
  simp [waitStep, h, he]

theorem waitStep_of_release {s : State} {e : KeyEvent} {rest : List KeyEvent} (x : Index)
    (h : s.queue = e :: rest) (he : e.pressed = false) :
    waitStep x s = (s.applyKey e).setQueue rest := by
  simp [waitStep, h, he]

/-- The frame of what every `Step` begins with. -/
theorem onlyChanges_begun (s : State) :
    OnlyChanges {.notify, .boot, .schedule} s s.takeNext.beginStep := by
  refine ((onlyChanges_takeNext s).trans (onlyChanges_beginStep s.takeNext)).mono ?_
  rintro c (rfl | rfl | rfl) <;> simp

/-- Applying one event and taking it off the queue. -/
theorem onlyChanges_consume (s : State) (e : KeyEvent) (rest : List KeyEvent) :
    OnlyChanges {.queue, .key e.code} s ((s.applyKey e).setQueue rest) := by
  refine ((onlyChanges_applyKey s e).trans (onlyChanges_setQueue _ rest)).mono ?_
  rintro c (rfl | rfl) <;> simp

/-- Settles O10: the case split is on the queue, then on the oldest event. -/
theorem keyWaitConsumesOneEvent : Obligations.KeyWaitConsumesOneEvent := by
  refine ⟨fun s => Option.isSome_iff_ne_none, fun s x hd hf hw => ?_⟩
  have hstep := step_of_waiting hd hf hw
  have hbegun := onlyChanges_begun s
  generalize hu : s.takeNext.beginStep = u at hstep hbegun
  have hqueue : u.queue = s.queue := by rw [← hu]; rfl
  have hnotify : u.notify = false := by rw [← hu]; rfl
  have hschedule : u.schedule = s.schedule.tail := by rw [← hu]; rfl
  constructor
  · intro hq
    rw [waitStep_of_nil x (hqueue.trans hq)] at hstep
    exact ⟨u, hstep, hnotify, hschedule, hbegun⟩
  · intro e rest hq
    have hconsume := hbegun.trans (onlyChanges_consume u e rest)
    cases he : e.pressed with
    | true =>
      rw [waitStep_of_press x (hqueue.trans hq) he] at hstep
      refine ⟨_, hstep, rfl, ?_, hnotify, hschedule, fun _ => ⟨rfl, ?_, ?_⟩, nofun⟩
      · simp [he]
      · rw [State.setWait_reg, State.reg_setReg_self, index_byte_toNat]
      · refine ((hconsume.trans (onlyChanges_setReg _ x _)).trans (onlyChanges_setWait _ _)).mono ?_
        rintro c ((((rfl | rfl | rfl) | (rfl | rfl)) | rfl) | rfl) <;> simp
    | false =>
      rw [waitStep_of_release x (hqueue.trans hq) he] at hstep
      refine ⟨_, hstep, rfl, ?_, hnotify, hschedule, nofun, fun _ => hconsume.mono ?_⟩
      · simp [he]
      · rintro c ((rfl | rfl | rfl) | (rfl | rfl)) <;> simp

/-! ## The net change of `pc` -/

theorem bne_eq_decide_ne (a b : Byte) : (a != b) = decide (a ≠ b) := by
  rw [Bool.eq_iff_iff, bne_iff_ne, decide_eq_true_iff]

/-- The effect of a skip instruction is a skip on its condition. -/
theorem effect_of_skipCondition {i : Instr} {s : State} {c : Bool} (h : skipCondition i s = some c) :
    effect i s = s.skipIf c := by
  cases i with
  | seImm | seReg => cases h; rfl
  | sneImm | sneReg =>
    cases h
    exact congrArg s.skipIf (bne_eq_decide_ne _ _)
  | skp x | sknp x =>
    obtain ⟨k, hk, rfl⟩ := Option.map_eq_some_iff.1 h
    obtain rfl := eq_finOfNat (indexOf_eq_some.1 hk)
    rfl
  | _ => cases h

/-- A key number that raises no fault is an index. -/
theorem indexOf_of_le {b : Byte} (h : ¬ 15 < b.toNat) : indexOf b = some (Fin.ofNat 16 b.toNat) := by
  rw [indexOf_eq_some, Fin.val_ofNat]; omega

theorem skipIf_pc_toNat {s : State} (h : s.pc.toNat ≤ 4096) (c : Bool) :
    (s.skipIf c).pc.toNat = s.pc.toNat + if c then 2 else 0 := by
  rw [skipIf_pc]
  split
  · rw [BitVec.toNat_add]; simp only [BitVec.ofNat_eq_ofNat, BitVec.toNat_ofNat]; omega
  · rfl

/-- A skip that the step executes moves `pc` by 4 or 2. -/
theorem executed_skip_pc {s : State} {i : Instr} {c : Bool} (hpc : s.pc.toNat ≤ 4094)
    (h : skipCondition i (fetched s) = some c) :
    ∃ c, skipCondition i (fetched s) = some c ∧
      (effect i (fetched s)).pc.toNat = s.pc.toNat + if c then 4 else 2 := by
  have hfetched := fetched_pc_toNat hpc
  refine ⟨c, h, ?_⟩
  rw [effect_of_skipCondition h, skipIf_pc_toNat (by omega), hfetched]
  cases c <;> rfl

theorem executed_pc_of_unwritten {s : State} {i : Instr} (hpc : s.pc.toNat ≤ 4094)
    (h : Cell.pc ∉ writes i (fetched s)) :
    (effect i (fetched s)).pc.toNat = s.pc.toNat + 2 := by
  rw [effect_onlyChanges i (fetched s) .pc h, fetched_pc_toNat hpc]

/-- R60's table for an instruction that has its effect. -/
theorem executed_pc {s : State} {i : Instr} (hpc : s.pc.toNat ≤ 4094)
    (hfault : faultOf i (fetched s) = none) :
    match i with
    | .jp nnn | .call nnn => (effect i (fetched s)).pc.toNat = nnn.toNat
    | .jpV0 nnn => (effect i (fetched s)).pc.toNat = nnn.toNat + (s.reg 0).toNat
    | .ret => ∃ j : Index, s.sp.toNat = j.val ∧ (effect i (fetched s)).pc = s.stack[j]
    | .seImm _ _ | .sneImm _ _ | .seReg _ _ | .sneReg _ _ | .skp _ | .sknp _ =>
      ∃ c, skipCondition i (fetched s) = some c ∧
        (effect i (fetched s)).pc.toNat = s.pc.toNat + (if c then 4 else 2)
    | _ => (effect i (fetched s)).pc.toNat = s.pc.toNat + 2 := by
  cases i with
  | jp nnn | call nnn => exact zext16_toNat nnn
  | jpV0 nnn => exact zext16_add_byte_toNat nnn (s.reg 0)
  | ret =>
    have hsp : s.sp.toNat ≤ 15 := by
      by_contra hn
      rw [faultOf, if_pos (.inr (show 15 < s.sp.toNat by omega))] at hfault
      cases hfault
    exact ⟨Fin.ofNat 16 s.sp.toNat, by rw [Fin.val_ofNat]; omega, rfl⟩
  | seImm | sneImm | seReg | sneReg => exact executed_skip_pc hpc rfl
  | skp x | sknp x =>
    have hx : ¬ 15 < ((fetched s).reg x).toNat := fun hn => by
      rw [faultOf, if_pos hn] at hfault
      cases hfault
    exact executed_skip_pc hpc (congrArg (Option.map _) (indexOf_of_le hx))
  | _ => exact executed_pc_of_unwritten hpc (by simp [writes])

/-- Settles O12: an execute phase that does not fault is the effect, whose `pc` is `executed_pc`. -/
theorem netProgramCounterChange : Obligations.NetProgramCounterChange := by
  constructor
  · intro s i hready hpc hdec
    have hstep := step_of_executes ⟨hready, hpc, hdec⟩
    cases hfault : faultOf i (fetched s) with
    | some r =>
      have hexec := exec_of_fault hfault
      refine ⟨_, hstep.trans hexec, hexec, ?_, nofun⟩
      rintro x rfl
      cases hfault
    | none =>
      have hexec := exec_of_no_fault hfault
      refine ⟨_, hstep.trans hexec, hexec, ?_, fun _ => ?_⟩
      · rintro x rfl hnone
        simp [effect, lowestHeld_eq_none.2 hnone]
      · have hpc' := executed_pc hpc hfault
        cases i <;> exact hpc'
  · intro s hready hpc hill
    refine ⟨_, step_of_illegal hready hpc hill, fetched_pc_toNat hpc, ?_⟩
    rw [State.setFault_fault, wordAtPc_toNat]

/-! ## Faults -/

/-- Settles O13: an effect records no fault. -/
theorem faultCommitsNothing : Obligations.FaultCommitsNothing := by
  intro i s t hs hexec ht
  obtain ⟨r, -, rfl⟩ | ⟨-, rfl⟩ := exec_cases hexec
  · exact ⟨r, rfl⟩
  · exact absurd ((effect_fault i s).trans hs) ht

/-- Settles O14: the record after an execute phase is the table's, by `exec_eq`. -/
theorem faultsFollowTheTable : Obligations.FaultsFollowTheTable := by
  refine ⟨fun i s hs => ?_, fun s hs => ?_, fun s r hs => ?_⟩
  · have hfault : ∃ t, exec i s = .next t ∧ t.fault = faultOf i s := by
      cases h : faultOf i s with
      | some r => exact ⟨_, exec_of_fault h, rfl⟩
      | none => exact ⟨_, exec_of_no_fault h, (effect_fault i s).trans hs⟩
    obtain ⟨t, hexec, ht⟩ := hfault
    refine ⟨t, hexec, ht, ?_⟩
    rw [State.halted, Option.isSome_iff_ne_none, ht]
  · simp [State.halted, State.faultCause, State.faultInfo, hs]
  · refine ⟨by simp [State.halted, hs], by simp [State.faultInfo, hs], ?_⟩
    rw [State.faultCause, hs]
    rfl

/-- Settles O15: with a fault recorded no dispatcher is ready, and each other step but `Reset` keeps the record
and, where no image is acceptable, changes only its own agent's cells. -/
theorem faultStaysUntilReset : Obligations.FaultStaysUntilReset := by
  intro s r hf hreset
  obtain ⟨t, hstep, hto⟩ := step_stepTo s
  refine ⟨t, hstep, ?_⟩
  have hnotReady : ¬ Ready s := fun ⟨_, hnone, _⟩ => by rw [hf] at hnone; cases hnone
  have htake := onlyChanges_takeNext s
  cases hto with
  | reset hn => exact absurd hn hreset
  | load image =>
    by_cases hb : s.boot = .fresh
    · rw [load_fresh (s := s.takeNext) hb]
      exact ⟨hf, fun hn => absurd hb hn⟩
    · rw [load_not_fresh (s := s.takeNext) hb]
      exact ⟨hf, fun _ => htake.mono (by simp)⟩
  | channelFail =>
    rw [channelFail_eq, if_neg (by rw [State.takeNext_fault, hf]; exact nofun)]
    exact ⟨hf, fun _ => htake.mono (by simp)⟩
  | tick =>
    refine ⟨hf, fun _ => (htake.trans (onlyChanges_tick _)).mono ?_⟩
    rintro c (rfl | rfl | rfl) <;> simp
  | keyEvent e =>
    refine ⟨hf, fun _ => (htake.trans (onlyChanges_enqueue _ e)).mono ?_⟩
    rintro c (rfl | rfl) <;> simp
  | fbRead => exact ⟨hf, fun _ => htake.mono (by simp)⟩
  | redrawAck =>
    refine ⟨hf, fun _ => (htake.trans (onlyChanges_redrawAck _)).mono ?_⟩
    rintro c (rfl | rfl) <;> simp
  | halted =>
    refine ⟨hf, fun _ => (onlyChanges_begun s).mono ?_⟩
    rintro c (rfl | rfl | rfl) <;> simp
  | waiting x _ hnone => rw [hf] at hnone; cases hnone
  | fetchFault hr => exact absurd hr hnotReady
  | illegal hr => exact absurd hr hnotReady
  | faulted _ _ hi => exact absurd hi.ready hnotReady
  | executed _ hi => exact absurd hi.ready hnotReady

/-! ## Reset -/

/-- Every cell of the spec in a state that is the reset state but for the model's own two fields. -/
theorem resetValues (d : Nat) (l : List Transaction) :
    let t : State := { State.reset with draws := d, schedule := l }
    (∀ r : Index, t.reg r = 0 ∧ t.stack[r] = 0 ∧ t.keys[r] = false ∧
      t.fontOffset[r].toNat = 5 * r.val) ∧
    t.I = 0 ∧ t.pc = 0x200 ∧ t.sp = 0 ∧ t.DT = 0 ∧ t.ST = 0 ∧ (∀ j, t.fb.cell j = false) ∧
    (∀ a, a < 80 → some (t.byteAt a) = Config.font[a]?) ∧ (∀ a, 80 ≤ a → t.byteAt a = 0) ∧
    t.queue = [] ∧ t.wait = none ∧ t.fault = none ∧ t.redrawPending = false := by
  have hlen : Config.font.length = 80 := by decide
  have hindexed : ∀ r : Index, State.reset.reg r = 0 ∧ State.reset.stack[r] = 0 ∧
      State.reset.keys[r] = false ∧ State.reset.fontOffset[r].toNat = 5 * r.val := by decide
  refine ⟨hindexed, rfl, rfl, rfl, rfl, rfl, Framebuffer.cell_blank, fun a ha => ?_,
    fun a ha => ?_, rfl, rfl, rfl, rfl⟩
  · have hget : a < Config.font.length := by omega
    exact (congrArg some (List.getD_eq_getElem _ _ hget)).trans (List.getElem?_eq_getElem hget).symm
  · exact List.getD_eq_default _ _ (by omega)

/-- Settles O18: `Reset` answers the reset state but for the model's own two fields. -/
theorem resetRestoresEveryCell : Obligations.ResetRestoresEveryCell := by
  refine ⟨fun s rest _ => everyStepAnswersNext s, ?_⟩
  rintro t (rfl | ⟨s, rest, hsched, hstep⟩)
  · exact resetValues 0 []
  · rw [step_of_schedule hsched] at hstep
    cases hstep
    exact resetValues s.draws rest

end Sys2Proof.Machine

/-! # Who writes what

The claims of spec/10_state.md and spec/20_memory.md about the writers of a cell, read off `Writer`, and those
of spec/44_display.md R97 and spec/60_exceptions.md R116 about the notification. -/

namespace Sys2Proof.Machine

/-! ## Registers, memory, stack and timers -/

/-- Settles O19: the frame of the instruction names `V[15]` only where the statement does. -/
theorem flagRegisterWriters : Obligations.FlagRegisterWriters := by
  intro i s t hexec hne
  obtain ⟨r, -, rfl⟩ | ⟨-, rfl⟩ := exec_cases hexec
  · exact absurd rfl hne
  · have hmem : Cell.V 15 ∈ writes i s := (effect_onlyChanges i s).mem_of_not_sameAt hne
    cases i with
    | addReg | subReg | shr | subnReg | shl | drw => exact .inl rfl
    | ldImm | addImm | ldReg | orReg | andReg | xorReg | rnd | ldVxDT | ldVxK =>
      simp [writes] at hmem
      exact .inr (congrArg some hmem.symm)
    | loadRegs x =>
      obtain ⟨k, hk, hkeq⟩ := hmem
      cases hkeq
      exact .inr (congrArg some (le_antisymm (Fin.le_last x) hk))
    | _ => simp [writes] at hmem

/-- Settles O20: of the instructions only two write bytes, each inside its transfer. -/
theorem memoryWriters : Obligations.MemoryWriters := by
  intro s t a hstep hne
  cases (stepTo_of_step hstep).writer (c := .byte a) hne with
  | cycle h => simp [cycleCells] at h
  | reset h => exact .inl h
  | load image hn hb hbyte =>
    obtain ⟨k, hk, hkeq⟩ := hbyte
    cases hkeq
    exact .inr (.inl ⟨hb, image, hn, by omega, by omega⟩)
  | tick _ h => simp at h
  | redrawAck _ h => simp at h
  | instr i hi h =>
    cases i with
    | ldB x =>
      obtain ⟨k, hk, hkeq⟩ := h
      cases hkeq
      exact .inr (.inr (.inl ⟨x, hi, Nat.le_add_right _ _, Nat.add_le_add_left (by omega) _⟩))
    | storeRegs x =>
      obtain ⟨k, hk, hkeq⟩ := h
      cases hkeq
      exact .inr (.inr (.inr ⟨x, hi, Nat.le_add_right _ _, Nat.add_le_add_left (by omega) _⟩))
    | _ => simp [writes] at h

/-- Two call stacks that differ, differ in an entry. -/
theorem exists_stack_ne {s t : State} (h : t.stack ≠ s.stack) :
    ∃ j : Index, t.stack[j] ≠ s.stack[j] := by
  by_contra hn
  push Not at hn
  exact h (Vector.ext fun j hj => hn ⟨j, hj⟩)

/-- The cells that no agent writes but an instruction and a reset. -/
def instrCells : Set Cell := {.I, .sp} ∪ (Set.range Cell.stack ∪ Set.range Cell.pixel)

theorem Writer.of_instrCells {s : State} {c : Cell} (h : Writer s c) (hc : c ∈ instrCells) :
    nextIs s .reset ∨ ∃ i, Executes s i ∧ c ∈ writes i (fetched s) := by
  cases h with
  | cycle h => rcases hc with (rfl | rfl) | ⟨j, rfl⟩ | ⟨j, rfl⟩ <;> simp [cycleCells] at h
  | reset h => exact .inl h
  | load _ _ _ h => rcases hc with (rfl | rfl) | ⟨j, rfl⟩ | ⟨j, rfl⟩ <;> simp at h
  | tick _ h => rcases hc with (rfl | rfl) | ⟨j, rfl⟩ | ⟨j, rfl⟩ <;> simp at h
  | redrawAck _ h => rcases hc with (rfl | rfl) | ⟨j, rfl⟩ | ⟨j, rfl⟩ <;> simp at h
  | instr i hi h => exact .inr ⟨i, hi, h⟩

/-- Settles O21: `sp` is written by RET and CALL, a stack entry by CALL. -/
theorem stackWriters : Obligations.StackWriters := by
  refine fun s t hstep => ⟨fun hne => ?_, fun hne => ?_⟩
  · obtain h | ⟨i, hi, hw⟩ :=
      ((stepTo_of_step hstep).writer (c := .sp) hne).of_instrCells (by simp [instrCells])
    · exact .inl h
    · cases i with
      | ret => exact .inr (.inl hi)
      | call nnn => exact .inr (.inr ⟨nnn, hi⟩)
      | _ => simp [writes] at hw
  · obtain ⟨j, hj⟩ := exists_stack_ne hne
    obtain h | ⟨i, hi, hw⟩ :=
      ((stepTo_of_step hstep).writer (c := .stack j) hj).of_instrCells (by simp [instrCells])
    · exact .inl h
    · cases i with
      | call nnn => exact .inr ⟨nnn, hi⟩
      | _ => simp [writes] at hw

/-- Settles O22: `I` is written by three instructions. -/
theorem addressRegisterWriters : Obligations.AddressRegisterWriters := by
  intro s t hstep hne
  obtain h | ⟨i, hi, hw⟩ :=
    ((stepTo_of_step hstep).writer (c := .I) hne).of_instrCells (by simp [instrCells])
  · exact .inl h
  · cases i with
    | ldI nnn => exact .inr (.inl ⟨nnn, hi⟩)
    | addI x => exact .inr (.inr (.inl ⟨x, hi⟩))
    | ldF x => exact .inr (.inr (.inr ⟨x, hi⟩))
    | _ => simp [writes] at hw

/-- A timer is written by a tick, a reset or an instruction. -/
theorem Writer.of_timer {s : State} {c : Cell} (h : Writer s c) (hc : c = .DT ∨ c = .ST) :
    nextIs s .tick ∨ nextIs s .reset ∨ ∃ i, Executes s i ∧ c ∈ writes i (fetched s) := by
  cases h with
  | cycle h => rcases hc with rfl | rfl <;> simp [cycleCells] at h
  | reset h => exact .inr (.inl h)
  | load _ _ _ h => rcases hc with rfl | rfl <;> simp at h
  | tick h => exact .inl h
  | redrawAck _ h => rcases hc with rfl | rfl <;> simp at h
  | instr i hi h => exact .inr (.inr ⟨i, hi, h⟩)

/-- Settles O23: each timer is written by its own load instruction alone. -/
theorem timerWriters : Obligations.TimerWriters := by
  refine fun s t hstep => ⟨fun hne => ?_, fun hne => ?_⟩
  · obtain h | h | ⟨i, hi, hw⟩ :=
      ((stepTo_of_step hstep).writer (c := .DT) hne).of_timer (.inl rfl)
    · exact .inl h
    · exact .inr (.inl h)
    · cases i with
      | ldDTVx x => exact .inr (.inr ⟨x, hi⟩)
      | _ => simp [writes] at hw
  · obtain h | h | ⟨i, hi, hw⟩ :=
      ((stepTo_of_step hstep).writer (c := .ST) hne).of_timer (.inr rfl)
    · exact .inl h
    · exact .inr (.inl h)
    · cases i with
      | ldSTVx x => exact .inr (.inr ⟨x, hi⟩)
      | _ => simp [writes] at hw

/-! ## The notification -/

/-- Whether the effect of an instruction emits a notification (R97). -/
def notifies : Instr → State → Bool
  | .cls, s => s.fb != Framebuffer.blank
  | .drw x y n, s => (s.drawSprite (s.reg x) (s.reg y) s.I.toNat n).changed
  | _, _ => false

/-- The pulse and the latch after an effect (R24). -/
theorem effect_notification (i : Instr) (s : State) :
    (effect i s).notify = (s.notify || notifies i s) ∧
      (effect i s).redrawPending = (s.redrawPending || notifies i s) := by
  cases i with
  | cls => exact ⟨notifyIf_notify _ _, notifyIf_redrawPending _ _⟩
  | drw x y n => exact ⟨effect_drw_notify x y n s, effect_drw_redrawPending x y n s⟩
  | _ =>
    simp only [notifies, Bool.or_false]
    exact ⟨effect_onlyChanges _ s .notify (by simp [writes]),
      effect_onlyChanges _ s .redrawPending (by simp [writes])⟩

/-- An executed DRW has at most 15 rows, the width of its field. -/
theorem Executes.drw_rows_le {s : State} {x y : Index} {n : Nat} (h : Executes s (.drw x y n)) :
    n ≤ 15 := by
  simpa [Instr.wellFormed] using (encodeOfDecodeGivesWord _ _ h.decode).1

/-- The effect emits a notification exactly when R97 says so. -/
theorem notifies_iff {s : State} {i : Instr} (h : Executes s i) :
    notifies i (fetched s) = true ↔
      (i = .cls ∧ ∃ j < 2048, s.fb.cell j = true) ∨
      ∃ x y n, i = .drw x y n ∧ ∃ j, InSprite s (s.reg x) (s.reg y) s.I.toNat n j := by
  cases i with
  | cls =>
    have hfb : (fetched s).fb = s.fb := rfl
    simpa [notifies, hfb] using Framebuffer.ne_blank_iff s.fb
  | drw x y n =>
    have hrows := h.drw_rows_le
    have hdrawn := drawSprite_drawn (fetched s) (s.reg x) (s.reg y) s.I.toNat (n := n) (by omega)
    constructor
    · intro hn
      exact .inr ⟨x, y, n, rfl, hdrawn.changed.1 hn⟩
    · rintro (⟨hcls, -⟩ | ⟨_, _, _, hdrw, hj⟩)
      · cases hcls
      · cases hdrw
        exact hdrawn.changed.2 hj
  | _ => simp [notifies]

/-- A fault is due on what the instruction names, which the fetch leaves alone. -/
theorem faultOf_fetched (i : Instr) (s : State) : faultOf i (fetched s) = faultOf i s := by
  cases i <;> rfl

/-- A step that executes no instruction raises neither the pulse nor the latch. -/
theorem StepTo.not_raised {s t : State} (h : StepTo s t) (hno : ∀ i, ¬ Executes s i) :
    (t.notify = true → s.notify = true) ∧
      (t.redrawPending = true → s.redrawPending = true) := by
  cases h with
  | reset => exact ⟨nofun, nofun⟩
  | load image =>
    by_cases hb : s.boot = .fresh
    · rw [load_fresh (s := s.takeNext) hb]; exact ⟨id, id⟩
    · rw [load_not_fresh (s := s.takeNext) hb]; exact ⟨id, id⟩
  | channelFail => rw [channelFail_eq]; split <;> exact ⟨id, id⟩
  | tick | keyEvent | fbRead => exact ⟨id, id⟩
  | redrawAck => exact ⟨id, nofun⟩
  | halted => exact ⟨nofun, id⟩
  | waiting x =>
    have hframe := onlyChanges_waitStep x s.takeNext.beginStep
    rw [hframe .notify (by simp), hframe .redrawPending (by simp)]
    exact ⟨nofun, id⟩
  | fetchFault => rw [drained_eq]; exact ⟨nofun, id⟩
  | illegal => exact ⟨nofun, id⟩
  | faulted i _ hi => exact absurd hi (hno i)
  | executed i hi => exact absurd hi (hno i)

/-- Settles O24: a faulting instruction leaves the cleared pulse, another raises it as `notifies` says. -/
theorem notificationRule : Obligations.NotificationRule := by
  refine ⟨fun s i hi => ?_, fun s t hno hstep => (stepTo_of_step hstep).not_raised hno⟩
  have hstep := step_of_executes hi
  cases hfault : faultOf i (fetched s) with
  | some r =>
    refine ⟨_, hstep.trans (exec_of_fault hfault), ⟨nofun, ?_⟩, (Bool.or_false _).symm⟩
    rw [faultOf_fetched] at hfault
    rintro (⟨rfl, -⟩ | ⟨x, y, n, rfl, hnone, -⟩)
    · cases hfault
    · rw [hnone] at hfault; cases hfault
  | none =>
    obtain ⟨hnotify, hlatch⟩ := effect_notification i (fetched s)
    have hpulse : (effect i (fetched s)).notify = notifies i (fetched s) :=
      hnotify.trans (Bool.false_or _)
    refine ⟨_, hstep.trans (exec_of_no_fault hfault), ?_, by rw [hlatch, hpulse]; rfl⟩
    rw [faultOf_fetched] at hfault
    rw [hpulse, notifies_iff hi]
    refine or_congr_right ?_
    constructor
    · rintro ⟨x, y, n, rfl, hj⟩
      exact ⟨x, y, n, rfl, hfault, hj⟩
    · rintro ⟨x, y, n, rfl, -, hj⟩
      exact ⟨x, y, n, rfl, hj⟩

/-! ## The display surface -/

/-- An effect that emits no notification leaves every pixel alone. -/
theorem effect_cell_of_not_notifies {s : State} {i : Instr} (hi : Executes s i)
    (h : notifies i (fetched s) = false) (j : Nat) :
    (effect i (fetched s)).fb.cell j = s.fb.cell j := by
  cases i with
  | cls =>
    have hblank : (fetched s).fb = Framebuffer.blank := by simpa [notifies] using h
    rw [effect_cls_of_blank hblank]; rfl
  | drw x y n =>
    have hrows := hi.drw_rows_le
    have hdrawn := drawSprite_drawn (fetched s) (s.reg x) (s.reg y) s.I.toNat (n := n) (by omega)
    have hempty : ¬ Set.Nonempty {j | InSprite (fetched s) (s.reg x) (s.reg y) s.I.toNat n j} :=
      fun hne => by rw [← hdrawn.changed] at hne; exact absurd (hne.symm.trans h) nofun
    have hj : ¬ InSprite (fetched s) (s.reg x) (s.reg y) s.I.toNat n j := fun hj => hempty ⟨j, hj⟩
    rw [effect_drw_fb, Bool.eq_iff_iff]
    exact (hdrawn.cell j).trans (by simp [Xor, hj]; rfl)
  | _ => exact effect_onlyChanges _ (fetched s) (.pixel j) (by simp [writes])

/-- Settles O28: a pixel is written by CLS and DRW, and changes only with a notification; the other two
transactions have one-cell frames. -/
theorem displaySurface : Obligations.DisplaySurface := by
  refine ⟨fun s t j hstep hne => ?_, fun s j rest hsched => ?_, fun s rest hsched => ?_⟩
  · obtain h | ⟨i, hi, hw⟩ :=
      ((stepTo_of_step hstep).writer (c := .pixel j) hne).of_instrCells (by simp [instrCells])
    · exact .inl h
    · have hinstr : Executes s .cls ∨ ∃ x y n, Executes s (.drw x y n) := by
        cases i with
        | cls => exact .inl hi
        | drw x y n => exact .inr ⟨x, y, n, hi⟩
        | _ => simp [writes] at hw
      rw [step_of_executes hi] at hstep
      obtain ⟨r, -, rfl⟩ | ⟨-, rfl⟩ := exec_cases hstep
      · exact absurd rfl hne
      · obtain ⟨hnotify, hlatch⟩ := effect_notification i (fetched s)
        have hn : notifies i (fetched s) = true := by
          rw [← Bool.not_eq_false]
          exact fun hn => hne (effect_cell_of_not_notifies hi hn j)
        rw [hnotify, hlatch, hn, Bool.or_true, Bool.or_true]
        exact .inr ⟨hinstr, rfl, rfl⟩
  · exact ⟨rfl, _, step_of_nextIs (State.nextUp_cons hsched), congrArg List.tail hsched,
      onlyChanges_takeNext s⟩
  · refine ⟨_, step_of_nextIs (State.nextUp_cons hsched), rfl, congrArg List.tail hsched, ?_⟩
    refine ((onlyChanges_takeNext s).trans (onlyChanges_redrawAck _)).mono ?_
    rintro c (rfl | rfl) <;> simp

end Sys2Proof.Machine

/-! # The other agents

The claims of spec/60_exceptions.md R114 to R118 and spec/20_memory.md R44 about one transaction each, and of
R105 about many ticks. -/

namespace Sys2Proof.Machine

/-! ## Single transactions -/

/-- Settles O25. -/
theorem tickCountsDown : Obligations.TickCountsDown := by
  intro s rest hsched
  refine ⟨_, step_of_nextIs (State.nextUp_cons hsched), countDown_toNat s.DT, countDown_toNat s.ST,
    congrArg List.tail hsched, ?_⟩
  refine ((onlyChanges_takeNext s).trans (onlyChanges_tick _)).mono ?_
  rintro c (rfl | rfl | rfl) <;> simp

/-- Settles O30. -/
theorem channelFailRecordsFault : Obligations.ChannelFailRecordsFault := by
  intro s rest hsched
  have hframe : OnlyChanges {.fault, .schedule} s s.takeNext.channelFail := by
    refine ((onlyChanges_takeNext s).trans (onlyChanges_channelFail _)).mono ?_
    rintro c (rfl | rfl) <;> simp
  refine ⟨_, step_of_nextIs (State.nextUp_cons hsched), ?_, hframe, ?_⟩
  · rw [channelFail_eq]
    split <;> exact congrArg List.tail hsched
  · rw [channelFail_eq, State.takeNext_fault]
    cases hf : s.fault with
    | none => rfl
    | some r => exact hf

/-- An accepted image, byte by byte: it ends where memory does, at 0x200 + 3584 = 0x1000. -/
theorem byteAt_storeBytes_take (s : State) (image : List Byte) (a : Nat) :
    (s.storeBytes 0x200 (image.take 3584)).byteAt a =
      if 0x200 ≤ a ∧ a < 0x1000 then (image[a - 0x200]?).getD (s.byteAt a) else s.byteAt a := by
  have hlen : 0x200 + (image.take 3584).length ≤ Config.memSize := by
    rw [List.length_take, Config.memSize]; omega
  rw [State.byteAt_storeBytes s _ _ hlen, List.getElem?_take]
  by_cases hlow : 0x200 ≤ a
  · by_cases hhigh : a < 0x1000
    · have hcut : a - 0x200 < 3584 := by omega
      rw [if_pos hlow, if_pos hcut, if_pos ⟨hlow, hhigh⟩]
    · have hcut : ¬ a - 0x200 < 3584 := by omega
      rw [if_pos hlow, if_neg hcut, if_neg (fun h => hhigh h.2)]
      rfl
  · rw [if_neg hlow, if_neg (fun h => hlow h.1)]

/-- Settles O29: the case split is on the ghost cell. -/
theorem loadCopiesImage : Obligations.LoadCopiesImage := by
  intro s image rest hsched
  have hstep : step s = .next (s.takeNext.load image) := step_of_nextIs (State.nextUp_cons hsched)
  refine ⟨fun hb => ?_, fun hb => ?_⟩
  · have hframe := (onlyChanges_takeNext s).trans (onlyChanges_load_fresh (s := s.takeNext) hb image)
    rw [load_fresh (s := s.takeNext) hb] at hstep hframe
    refine ⟨_, hstep, rfl, congrArg List.tail hsched, byteAt_storeBytes_take s.takeNext image,
      hframe.mono ?_⟩
    rintro c (rfl | hc | rfl)
    · simp
    · exact .inl hc
    · simp
  · rw [load_not_fresh (s := s.takeNext) hb] at hstep
    exact ⟨_, hstep, congrArg List.tail hsched, onlyChanges_takeNext s⟩

/-! ## Many ticks -/

/-- By induction on the number of ticks, each of which is `tickCountsDown`. -/
theorem run_ticks (n : Nat) (s : State) (rest : List Transaction)
    (hsched : s.schedule = List.replicate n .tick ++ rest) :
    ∃ t, core.run n s = .next t ∧ t.DT.toNat = s.DT.toNat - n ∧ t.ST.toNat = s.ST.toNat - n ∧
      t.schedule = rest ∧ OnlyChanges {.DT, .ST, .schedule} s t := by
  induction n generalizing s with
  | zero => exact ⟨s, rfl, rfl, rfl, hsched, OnlyChanges.refl _ s⟩
  | succ n ih =>
    obtain ⟨t, hstep, hDT, hST, htail, hframe⟩ := tickCountsDown s _ hsched
    obtain ⟨u, hrun, hDT', hST', hrest, hframe'⟩ := ih t htail
    exact ⟨u, (core_run_succ hstep n).trans hrun, by omega, by omega, hrest,
      hframe.trans_same hframe'⟩

/-! ## A timer that nobody writes reaches zero -/

/-- A sequence that never rises and falls again and again, down to zero, is zero from some place on. -/
theorem eventually_zero {a : Nat → Nat} {n : Nat} (hle : ∀ m, n ≤ m → a (m + 1) ≤ a m)
    (hfalls : ∀ k, n ≤ k → ∃ m, k ≤ m ∧ a (m + 1) = a m - 1) :
    ∃ m, n ≤ m ∧ ∀ k, m ≤ k → a k = 0 := by
  have hanti : ∀ m, n ≤ m → ∀ k, m ≤ k → a k ≤ a m := fun m hm k hk => by
    induction k, hk using Nat.le_induction with
    | base => exact le_rfl
    | succ k hk ih => exact (hle k (hm.trans hk)).trans ih
  have hreach : ∀ v k, n ≤ k → a k ≤ v → ∃ m, k ≤ m ∧ a m = 0 := by
    intro v
    induction v with
    | zero => exact fun k _ hv => ⟨k, le_rfl, Nat.le_zero.1 hv⟩
    | succ v ih =>
      intro k hk hv
      obtain ⟨m, hm, hfall⟩ := hfalls k hk
      have hbefore := hanti k hk m hm
      obtain ⟨m', hm', hzero⟩ := ih (m + 1) (by omega) (by omega)
      exact ⟨m', by omega, hzero⟩
  obtain ⟨m, hm, hzero⟩ := hreach (a n) n le_rfl le_rfl
  exact ⟨m, hm, fun k hk => Nat.le_zero.1 (hzero ▸ hanti m hm k hk)⟩

/-- No transaction but a `Step` raises a timer. -/
theorem transact_timers_le {tr : Transaction} {s t : State} (h : transact tr s = .next t)
    (hne : tr ≠ .step) : t.DT.toNat ≤ s.DT.toNat ∧ t.ST.toNat ≤ s.ST.toNat := by
  cases tr with
  | step => exact absurd rfl hne
  | reset => cases h; exact ⟨Nat.zero_le _, Nat.zero_le _⟩
  | tick =>
    cases h
    exact ⟨(countDown_toNat s.DT).trans_le (Nat.sub_le _ _),
      (countDown_toNat s.ST).trans_le (Nat.sub_le _ _)⟩
  | load image =>
    cases h
    by_cases hb : s.boot = .fresh
    · rw [load_fresh hb]; exact ⟨le_rfl, le_rfl⟩
    · rw [load_not_fresh hb]; exact ⟨le_rfl, le_rfl⟩
  | channelFail => cases h; rw [channelFail_eq]; split <;> exact ⟨le_rfl, le_rfl⟩
  | keyEvent | fbRead | redrawAck => cases h; exact ⟨le_rfl, le_rfl⟩

section
variable {σ : Interleaving} {run : Nat → State} {n : Nat} {timer : State → Byte}

/-- In a fair run a timer that no `Step` changes from place `n` on is zero from some place on. -/
theorem timer_eventually_zero (hfair : FairRun σ run)
    (htick : ∀ s : State, timer s.tick = countDown (timer s))
    (hle : ∀ {tr : Transaction} {s t : State}, transact tr s = .next t → tr ≠ .step →
      (timer t).toNat ≤ (timer s).toNat)
    (hstep : ∀ m, n ≤ m → σ m = .step → timer (run (m + 1)) = timer (run m)) :
    ∃ m, n ≤ m ∧ ∀ k, m ≤ k → timer (run k) = 0 := by
  have hfalls : ∀ k, n ≤ k → ∃ m, k ≤ m ∧
      (timer (run (m + 1))).toNat = (timer (run m)).toNat - 1 := fun k _ => by
    obtain ⟨m, hm, htk⟩ := hfair.tick k fun _ _ => rfl
    have hrun := hfair.isRun m
    rw [htk] at hrun
    have htick' : (run m).tick = run (m + 1) := Host.Outcome.next.inj hrun
    exact ⟨m, hm, by rw [← htick', htick, countDown_toNat]⟩
  have hmono : ∀ m, n ≤ m → (timer (run (m + 1))).toNat ≤ (timer (run m)).toNat := fun m hm => by
    by_cases hs : σ m = .step
    · rw [hstep m hm hs]
    · exact hle (hfair.isRun m) hs
  obtain ⟨m, hm, hzero⟩ := eventually_zero (a := fun m => (timer (run m)).toNat) hmono hfalls
  exact ⟨m, hm, fun k hk => BitVec.eq_of_toNat_eq (hzero k hk)⟩

end

/-- Settles O26. -/
theorem ticksAccumulate : Obligations.TicksAccumulate :=
  ⟨run_ticks, fun _ _ _ hfair =>
    ⟨timer_eventually_zero hfair (fun _ => rfl) fun h hne => (transact_timers_le h hne).1,
      timer_eventually_zero hfair (fun _ => rfl) fun h hne => (transact_timers_le h hne).2⟩⟩

/-! # The self-jump

The claim of spec/40_cycle.md R63: a jump to itself is a fixed point, which no step of the four agents leaves. -/

/-- The dispatcher runs a jump to itself: no fault, no key-wait, and the word at `pc` is JP pc. -/
structure SelfJumping (s : State) : Prop where
  fault : s.fault = none
  wait : s.wait = none
  pc_le : s.pc.toNat ≤ 4094
  word : (s.byteAt s.pc.toNat).toNat * 256 + (s.byteAt (s.pc.toNat + 1)).toNat = 0x1000 + s.pc.toNat

/-- A step that leaves the fault record, the wait, `pc` and memory alone keeps the self-jump. -/
theorem SelfJumping.of_frame {s t : State} {cells : Set Cell} (h : SelfJumping s)
    (hframe : OnlyChanges cells s t) (hfault : .fault ∉ cells) (hwait : .wait ∉ cells)
    (hpc : .pc ∉ cells) (hbyte : ∀ a, .byte a ∉ cells) : SelfJumping t := by
  have hfault : t.fault = s.fault := hframe .fault hfault
  have hwait : t.wait = s.wait := hframe .wait hwait
  have hpc : t.pc = s.pc := hframe .pc hpc
  have hbyte : ∀ a, t.byteAt a = s.byteAt a := fun a => hframe (.byte a) (hbyte a)
  exact ⟨hfault.trans h.fault, hwait.trans h.wait, by rw [hpc]; exact h.pc_le, by
    rw [hpc, hbyte, hbyte]; exact h.word⟩

/-- The word of a self-jump decodes to a jump to `pc`. -/
theorem SelfJumping.decode {s : State} (h : SelfJumping s) :
    ∃ nnn : BitVec 12, decodeWord (wordAtPc s) = .ok (.jp nnn) ∧ nnn.toNat = s.pc.toNat := by
  have hpc := h.pc_le
  have hword : (wordAtPc s).toNat = 0x1000 + s.pc.toNat := (wordAtPc_toNat s).trans h.word
  have hhi : hiField (wordAtPc s) = 0x1 :=
    BitVec.eq_of_toNat_eq (by
      rw [hiField_toNat, hword]; simp only [BitVec.ofNat_eq_ofNat, BitVec.toNat_ofNat]; omega)
  exact ⟨_, decodeWord_of_hi_jp hhi, by rw [nnnField_toNat, hword]; omega⟩

/-- The step of a self-jump drains the queue and goes back to the same `pc`. -/
theorem SelfJumping.step_eq {s : State} (h : SelfJumping s) (hd : Dispatching s) :
    step s = .next ((fetched s).setPc s.pc) := by
  obtain ⟨nnn, hdec, hnnn⟩ := h.decode
  have htarget : zext16 nnn = s.pc := BitVec.eq_of_toNat_eq ((zext16_toNat nnn).trans hnnn)
  rw [step_of_executes ⟨⟨hd, h.fault, h.wait⟩, h.pc_le, hdec⟩, ← htarget]
  rfl

theorem onlyChanges_selfJump (s : State) :
    OnlyChanges ({.queue, .notify, .boot, .schedule} ∪ Set.range Cell.key) s
      ((fetched s).setPc s.pc) := by
  intro c hc
  cases c with
  | key k => exact absurd (.inr ⟨k, rfl⟩) hc
  | queue | notify | boot | schedule => simp at hc
  | _ => rfl

/-- Every step of the four agents keeps the self-jump and takes its transaction off the schedule. -/
theorem SelfJumping.step_keeps {s : State} (h : SelfJumping s) (hagent : s.nextUp.isAgentStep = true) :
    ∃ t, step s = .next t ∧ SelfJumping t ∧ t.schedule = s.schedule.tail := by
  have htaken : SelfJumping s.takeNext :=
    h.of_frame (onlyChanges_takeNext s) (by simp) (by simp) (by simp) (by simp)
  cases hn : s.nextUp with
  | step =>
    exact ⟨_, h.step_eq hn,
      h.of_frame (onlyChanges_selfJump s) (by simp) (by simp) (by simp) (by simp), rfl⟩
  | tick =>
    exact ⟨_, step_of_nextIs hn,
      htaken.of_frame (onlyChanges_tick _) (by simp) (by simp) (by simp) (by simp), rfl⟩
  | keyEvent e =>
    exact ⟨_, step_of_nextIs hn,
      htaken.of_frame (onlyChanges_enqueue _ e) (by simp) (by simp) (by simp) (by simp), rfl⟩
  | fbRead j => exact ⟨_, step_of_nextIs hn, htaken, rfl⟩
  | redrawAck =>
    exact ⟨_, step_of_nextIs hn,
      htaken.of_frame (onlyChanges_redrawAck _) (by simp) (by simp) (by simp) (by simp), rfl⟩
  | reset | load | channelFail => rw [hn] at hagent; cases hagent

/-- The next transaction of a schedule of agents' steps, or the `Step` after it, is one. -/
theorem nextUp_isAgentStep {s : State} (h : ∀ t ∈ s.schedule, t.isAgentStep = true) :
    s.nextUp.isAgentStep = true := by
  cases hl : s.schedule with
  | nil => rw [State.nextUp_nil hl]; rfl
  | cons tr rest => rw [State.nextUp_cons hl]; exact h tr (by simp [hl])

/-- By induction on the length of the run. -/
theorem SelfJumping.safeRun {s : State} (h : SelfJumping s)
    (hagents : ∀ t ∈ s.schedule, t.isAgentStep = true) (n : Nat) : SafeRun n s := by
  induction n generalizing s with
  | zero => exact h.fault
  | succ n ih =>
    obtain ⟨t, hstep, ht, hsched⟩ := h.step_keeps (nextUp_isAgentStep hagents)
    refine ⟨h.fault, t, hstep, ih ht fun tr htr => hagents tr ?_⟩
    rw [hsched] at htr
    exact List.mem_of_mem_tail htr

/-- Settles O38. -/
theorem selfJumpIsFixedPoint : Obligations.SelfJumpIsFixedPoint := by
  intro s ⟨hd, hfault, hwait⟩ hpc hword
  have h : SelfJumping s := ⟨hfault, hwait, hpc, hword⟩
  exact ⟨⟨_, h.step_eq hd, rfl, rfl, onlyChanges_selfJump s⟩, h.safeRun⟩

end Sys2Proof.Machine
